-- ==== Sys2Proof/Word.lean ====
section
/-! DEFINITION. The bit widths of the machine (spec/00_scope.md R5, spec/30_encoding.md R61). -/

namespace Sys2Proof

/-- An 8-bit value: a `V` register, a timer, a byte of memory, the immediate `kk`. -/
abbrev Byte := BitVec 8

/-- A 16-bit value: `I`, `PC`, a stack entry, an opcode. -/
abbrev Word := BitVec 16

/-- A 4-bit field: `t`, `x`, `y` or `n`. -/
abbrev Nib := BitVec 4

/-- The 12-bit field `nnn`. -/
abbrev Addr12 := BitVec 12

/-- The index of a `V` register (spec/10_state.md R10). -/
abbrev RegIx := BitVec 4

end Sys2Proof
end

