-- ==== Sys2Proof/Config.lean ====
section
/-! DEFINITION. The free values of the machine: constants without a body, of which no proof can know a value. -/

namespace Sys2Proof

/-- The environment's random bytes: `Config.rnd k` is what `random_byte()` answers at the k-th execution of `Cxkk`
(spec/10_state.md R25, spec/42_load_arith_logic.md R111, decision D19: any byte, under no law).
DESIGN CHOICE, a free value: notes/assumptions/1.md. -/
opaque Config.rnd : Nat → Byte

/-- Which of several pressed keys `Fx0A` loads, as a position in the ascending list of the pressed keys, taken modulo its
length (spec/45_keypad_timers.md R142, decision D15: `KeySelect` is any function of the pressed mask that answers a
pressed key). DESIGN CHOICE, a free value: notes/assumptions/2.md. -/
opaque Config.keyChoice : Word → Nat

end Sys2Proof
end

