-- ==== Sys2Proof/Syntax.lean ====
section
/-! DEFINITION. The 34 instructions of spec/30_encoding.md R65, in the table's order, one constructor per row of
spec/opcode_table.json. Operands have exactly the widths of R61. -/

namespace Sys2Proof

/-- The instruction set. `shr` and `shl` carry the field `y` that their encoding holds and their effect ignores
(R62), so that an instruction and its word determine each other. -/
inductive Instr where
  /-- 00E0 `CLS`: clear the framebuffer. -/
  | cls
  /-- 00EE `RET`: return from subroutine. -/
  | ret
  /-- 1nnn `JP nnn`: jump. -/
  | jp (nnn : Addr12)
  /-- 2nnn `CALL nnn`: call subroutine. -/
  | call (nnn : Addr12)
  /-- 3xkk `SE Vx, kk`: skip if equal. -/
  | seImm (x : RegIx) (kk : Byte)
  /-- 4xkk `SNE Vx, kk`: skip if different. -/
  | sneImm (x : RegIx) (kk : Byte)
  /-- 5xy0 `SE Vx, Vy`: skip if equal. -/
  | seReg (x y : RegIx)
  /-- 6xkk `LD Vx, kk`: load immediate. -/
  | ldImm (x : RegIx) (kk : Byte)
  /-- 7xkk `ADD Vx, kk`: add immediate, no flag. -/
  | addImm (x : RegIx) (kk : Byte)
  /-- 8xy0 `LD Vx, Vy`: copy. -/
  | ldReg (x y : RegIx)
  /-- 8xy1 `OR Vx, Vy`. -/
  | orReg (x y : RegIx)
  /-- 8xy2 `AND Vx, Vy`. -/
  | andReg (x y : RegIx)
  /-- 8xy3 `XOR Vx, Vy`. -/
  | xorReg (x y : RegIx)
  /-- 8xy4 `ADD Vx, Vy`: add, carry to VF. -/
  | addReg (x y : RegIx)
  /-- 8xy5 `SUB Vx, Vy`: Vx - Vy, no-borrow to VF. -/
  | sub (x y : RegIx)
  /-- 8xy6 `SHR Vx`: shift right by one, bit 0 to VF; `y` ignored. -/
  | shr (x y : RegIx)
  /-- 8xy7 `SUBN Vx, Vy`: Vy - Vx, no-borrow to VF. -/
  | subn (x y : RegIx)
  /-- 8xyE `SHL Vx`: shift left by one, bit 7 to VF; `y` ignored. -/
  | shl (x y : RegIx)
  /-- 9xy0 `SNE Vx, Vy`: skip if different. -/
  | sneReg (x y : RegIx)
  /-- Annn `LD I, nnn`. -/
  | ldI (nnn : Addr12)
  /-- Bnnn `JP V0, nnn`: jump to V0 + nnn. -/
  | jpV0 (nnn : Addr12)
  /-- Cxkk `RND Vx, kk`: random byte AND kk. -/
  | rnd (x : RegIx) (kk : Byte)
  /-- Dxyn `DRW Vx, Vy, n`: draw an 8 by n sprite. -/
  | drw (x y : RegIx) (n : Nib)
  /-- Ex9E `SKP Vx`: skip if key pressed. -/
  | skp (x : RegIx)
  /-- ExA1 `SKNP Vx`: skip if key not pressed. -/
  | sknp (x : RegIx)
  /-- Fx07 `LD Vx, DT`: read the delay timer. -/
  | ldVxDt (x : RegIx)
  /-- Fx0A `LD Vx, K`: wait for a key. -/
  | ldVxK (x : RegIx)
  /-- Fx15 `LD DT, Vx`: set the delay timer. -/
  | ldDtVx (x : RegIx)
  /-- Fx18 `LD ST, Vx`: set the sound timer. -/
  | ldStVx (x : RegIx)
  /-- Fx1E `ADD I, Vx`: add to the index, overflow to VF. -/
  | addI (x : RegIx)
  /-- Fx29 `LD F, Vx`: point I at a font glyph. -/
  | ldF (x : RegIx)
  /-- Fx33 `LD B, Vx`: store three decimal digits. -/
  | ldB (x : RegIx)
  /-- Fx55 `LD [I], Vx`: store V0..Vx. -/
  | storeRegs (x : RegIx)
  /-- Fx65 `LD Vx, [I]`: load V0..Vx. -/
  | loadRegs (x : RegIx)
  deriving DecidableEq, Repr

end Sys2Proof
end

