-- ==== Sys2Proof/Decode.lean ====
section
/-! DEFINITION. The decoder, the opcode table and the encoder (spec/30_encoding.md R60 to R72). -/

namespace Sys2Proof

/-- What an opcode decodes to: one of the 34 instructions, or `UNKNOWN`, which keeps the word by which it is reported
(R64, R70). -/
inductive Decoded where
  /-- The opcode matches a row of the opcode map. -/
  | instr (i : Instr)
  /-- The opcode matches no row (R70). -/
  | unknown (op : Word)
  deriving DecidableEq, Repr

/-- The top nibble `op[15:12]` (R61). -/
def fieldT (op : Word) : Nib := op.extractLsb' 12 4

/-- The register field `x = op[11:8]` (R61). -/
def fieldX (op : Word) : RegIx := op.extractLsb' 8 4

/-- The register field `y = op[7:4]` (R61). -/
def fieldY (op : Word) : RegIx := op.extractLsb' 4 4

/-- The low nibble `n = op[3:0]` (R61). -/
def fieldN (op : Word) : Nib := op.extractLsb' 0 4

/-- The low byte `kk = op[7:0]` (R61). -/
def fieldKK (op : Word) : Byte := op.extractLsb' 0 8

/-- The low twelve bits `nnn = op[11:0]` (R61). -/
def fieldNNN (op : Word) : Addr12 := op.extractLsb' 0 12

/-- An opcode is its two bytes, the high byte first in memory (R60, spec/20_memory.md R43). -/
def opcodeOfBytes (hi lo : Byte) : Word := BitVec.ofNat 16 (hi.toNat * 0x100 + lo.toNat)

/-- Group 0: all of `nnn` is the secondary opcode (R66). -/
def decodeGroup0 (op : Word) : Decoded :=
  if fieldNNN op = 0x0E0#12 then .instr .cls
  else if fieldNNN op = 0x0EE#12 then .instr .ret
  else .unknown op

/-- Groups 5 and 9: the low nibble must be 0 (R64, conflict C4 of spec/90_conflicts.md). -/
def decodeNZero (op : Word) (i : Instr) : Decoded :=
  if fieldN op = 0x0#4 then .instr i else .unknown op

/-- Group 8: the low nibble is the secondary opcode (R67). -/
def decodeGroup8 (op : Word) : Decoded :=
  match fieldN op with
  | 0x0#4 => .instr (.ldReg (fieldX op) (fieldY op))
  | 0x1#4 => .instr (.orReg (fieldX op) (fieldY op))
  | 0x2#4 => .instr (.andReg (fieldX op) (fieldY op))
  | 0x3#4 => .instr (.xorReg (fieldX op) (fieldY op))
  | 0x4#4 => .instr (.addReg (fieldX op) (fieldY op))
  | 0x5#4 => .instr (.sub (fieldX op) (fieldY op))
  | 0x6#4 => .instr (.shr (fieldX op) (fieldY op))
  | 0x7#4 => .instr (.subn (fieldX op) (fieldY op))
  | 0xE#4 => .instr (.shl (fieldX op) (fieldY op))
  | _ => .unknown op

/-- Group E: the low byte is the secondary opcode (R68). -/
def decodeGroupE (op : Word) : Decoded :=
  match fieldKK op with
  | 0x9E#8 => .instr (.skp (fieldX op))
  | 0xA1#8 => .instr (.sknp (fieldX op))
  | _ => .unknown op

/-- Group F: the low byte is the secondary opcode (R69). -/
def decodeGroupF (op : Word) : Decoded :=
  match fieldKK op with
  | 0x07#8 => .instr (.ldVxDt (fieldX op))
  | 0x0A#8 => .instr (.ldVxK (fieldX op))
  | 0x15#8 => .instr (.ldDtVx (fieldX op))
  | 0x18#8 => .instr (.ldStVx (fieldX op))
  | 0x1E#8 => .instr (.addI (fieldX op))
  | 0x29#8 => .instr (.ldF (fieldX op))
  | 0x33#8 => .instr (.ldB (fieldX op))
  | 0x55#8 => .instr (.storeRegs (fieldX op))
  | 0x65#8 => .instr (.loadRegs (fieldX op))
  | _ => .unknown op

/-- The decoder, total on all 65536 words: dispatch on the top nibble, then within groups 0, 5, 8, 9, E and F on the
low nibble or low byte (R64). -/
def decode (op : Word) : Decoded :=
  match fieldT op with
  | 0x0#4 => decodeGroup0 op
  | 0x1#4 => .instr (.jp (fieldNNN op))
  | 0x2#4 => .instr (.call (fieldNNN op))
  | 0x3#4 => .instr (.seImm (fieldX op) (fieldKK op))
  | 0x4#4 => .instr (.sneImm (fieldX op) (fieldKK op))
  | 0x5#4 => decodeNZero op (.seReg (fieldX op) (fieldY op))
  | 0x6#4 => .instr (.ldImm (fieldX op) (fieldKK op))
  | 0x7#4 => .instr (.addImm (fieldX op) (fieldKK op))
  | 0x8#4 => decodeGroup8 op
  | 0x9#4 => decodeNZero op (.sneReg (fieldX op) (fieldY op))
  | 0xA#4 => .instr (.ldI (fieldNNN op))
  | 0xB#4 => .instr (.jpV0 (fieldNNN op))
  | 0xC#4 => .instr (.rnd (fieldX op) (fieldKK op))
  | 0xD#4 => .instr (.drw (fieldX op) (fieldY op) (fieldN op))
  | 0xE#4 => decodeGroupE op
  | 0xF#4 => decodeGroupF op
  | _ => .unknown op

/-- Format `XKK` of R62: the hexadecimal digits `t`, `x`, and the two of `kk`. -/
def packXKK (t : Nib) (x : RegIx) (kk : Byte) : Word :=
  BitVec.ofNat 16 (t.toNat * 0x1000 + x.toNat * 0x100 + kk.toNat)

/-- Format `NNN` of R62: the digit `t` and the three of `nnn`. -/
def packNNN (t : Nib) (nnn : Addr12) : Word := BitVec.ofNat 16 (t.toNat * 0x1000 + nnn.toNat)

/-- Formats `XYS` and `XYN` of R62: the digits `t`, `x`, `y`, `n`. -/
def packXYN (t : Nib) (x y : RegIx) (n : Nib) : Word :=
  BitVec.ofNat 16 (t.toNat * 0x1000 + x.toNat * 0x100 + y.toNat * 0x10 + n.toNat)

/-- The word of an instruction, from the formats of R62 and the fixed digits of R65. -/
def encode : Instr → Word
  | .cls => 0x00E0#16
  | .ret => 0x00EE#16
  | .jp nnn => packNNN 0x1#4 nnn
  | .call nnn => packNNN 0x2#4 nnn
  | .seImm x kk => packXKK 0x3#4 x kk
  | .sneImm x kk => packXKK 0x4#4 x kk
  | .seReg x y => packXYN 0x5#4 x y 0x0#4
  | .ldImm x kk => packXKK 0x6#4 x kk
  | .addImm x kk => packXKK 0x7#4 x kk
  | .ldReg x y => packXYN 0x8#4 x y 0x0#4
  | .orReg x y => packXYN 0x8#4 x y 0x1#4
  | .andReg x y => packXYN 0x8#4 x y 0x2#4
  | .xorReg x y => packXYN 0x8#4 x y 0x3#4
  | .addReg x y => packXYN 0x8#4 x y 0x4#4
  | .sub x y => packXYN 0x8#4 x y 0x5#4
  | .shr x y => packXYN 0x8#4 x y 0x6#4
  | .subn x y => packXYN 0x8#4 x y 0x7#4
  | .shl x y => packXYN 0x8#4 x y 0xE#4
  | .sneReg x y => packXYN 0x9#4 x y 0x0#4
  | .ldI nnn => packNNN 0xA#4 nnn
  | .jpV0 nnn => packNNN 0xB#4 nnn
  | .rnd x kk => packXKK 0xC#4 x kk
  | .drw x y n => packXYN 0xD#4 x y n
  | .skp x => packXKK 0xE#4 x 0x9E#8
  | .sknp x => packXKK 0xE#4 x 0xA1#8
  | .ldVxDt x => packXKK 0xF#4 x 0x07#8
  | .ldVxK x => packXKK 0xF#4 x 0x0A#8
  | .ldDtVx x => packXKK 0xF#4 x 0x15#8
  | .ldStVx x => packXKK 0xF#4 x 0x18#8
  | .addI x => packXKK 0xF#4 x 0x1E#8
  | .ldF x => packXKK 0xF#4 x 0x29#8
  | .ldB x => packXKK 0xF#4 x 0x33#8
  | .storeRegs x => packXKK 0xF#4 x 0x55#8
  | .loadRegs x => packXKK 0xF#4 x 0x65#8

/-- The two bytes of an instruction as they lie in memory, the byte at the lower address first (R60,
spec/20_memory.md R43). -/
def encodeBytes (i : Instr) : Byte × Byte :=
  ((encode i).extractLsb' 8 8, (encode i).extractLsb' 0 8)

/-- The `mask` and `match` of an instruction's row of the opcode map (R65, R72). -/
def opcodeRow : Instr → Word × Word
  | .cls => (0xFFFF#16, 0x00E0#16)
  | .ret => (0xFFFF#16, 0x00EE#16)
  | .jp _ => (0xF000#16, 0x1000#16)
  | .call _ => (0xF000#16, 0x2000#16)
  | .seImm _ _ => (0xF000#16, 0x3000#16)
  | .sneImm _ _ => (0xF000#16, 0x4000#16)
  | .seReg _ _ => (0xF00F#16, 0x5000#16)
  | .ldImm _ _ => (0xF000#16, 0x6000#16)
  | .addImm _ _ => (0xF000#16, 0x7000#16)
  | .ldReg _ _ => (0xF00F#16, 0x8000#16)
  | .orReg _ _ => (0xF00F#16, 0x8001#16)
  | .andReg _ _ => (0xF00F#16, 0x8002#16)
  | .xorReg _ _ => (0xF00F#16, 0x8003#16)
  | .addReg _ _ => (0xF00F#16, 0x8004#16)
  | .sub _ _ => (0xF00F#16, 0x8005#16)
  | .shr _ _ => (0xF00F#16, 0x8006#16)
  | .subn _ _ => (0xF00F#16, 0x8007#16)
  | .shl _ _ => (0xF00F#16, 0x800E#16)
  | .sneReg _ _ => (0xF00F#16, 0x9000#16)
  | .ldI _ => (0xF000#16, 0xA000#16)
  | .jpV0 _ => (0xF000#16, 0xB000#16)
  | .rnd _ _ => (0xF000#16, 0xC000#16)
  | .drw _ _ _ => (0xF000#16, 0xD000#16)
  | .skp _ => (0xF0FF#16, 0xE09E#16)
  | .sknp _ => (0xF0FF#16, 0xE0A1#16)
  | .ldVxDt _ => (0xF0FF#16, 0xF007#16)
  | .ldVxK _ => (0xF0FF#16, 0xF00A#16)
  | .ldDtVx _ => (0xF0FF#16, 0xF015#16)
  | .ldStVx _ => (0xF0FF#16, 0xF018#16)
  | .addI _ => (0xF0FF#16, 0xF01E#16)
  | .ldF _ => (0xF0FF#16, 0xF029#16)
  | .ldB _ => (0xF0FF#16, 0xF033#16)
  | .storeRegs _ => (0xF0FF#16, 0xF055#16)
  | .loadRegs _ => (0xF0FF#16, 0xF065#16)

/-- `op` matches the row of the opcode map that the instruction `i` belongs to: `(op & mask) = match` (R64, R72). -/
def matchesRowOf (op : Word) (i : Instr) : Prop :=
  op &&& (opcodeRow i).1 = (opcodeRow i).2

/-- The opcode map as a list, one representative instruction per row, in the order of R65 (operands all zero). -/
def opcodeMap : List Instr :=
  [.cls, .ret, .jp 0, .call 0, .seImm 0 0, .sneImm 0 0, .seReg 0 0, .ldImm 0 0, .addImm 0 0, .ldReg 0 0, .orReg 0 0,
    .andReg 0 0] ++
  [.xorReg 0 0, .addReg 0 0, .sub 0 0, .shr 0 0, .subn 0 0, .shl 0 0, .sneReg 0 0, .ldI 0, .jpV0 0, .rnd 0 0,
    .drw 0 0 0] ++
  [.skp 0, .sknp 0, .ldVxDt 0, .ldVxK 0, .ldDtVx 0, .ldStVx 0, .addI 0, .ldF 0, .ldB 0, .storeRegs 0, .loadRegs 0]

/-- The instruction read from a word numbered as spec/opcode_table.json numbers it. An instruction is one 16-bit word, so
the first word is the whole opcode; bits above `nbits` are zero, and there is no instruction of more than 16 bits (R60,
R71). The bytes are laid out high byte first (spec/20_memory.md R43) and read back by the decoder. -/
def decodeTableWord (nbits w : Nat) : Option Instr :=
  if nbits ≤ 16 then
    let op : Word := BitVec.ofNat 16 (w % 2 ^ nbits)
    match decode (opcodeOfBytes (op.extractLsb' 8 8) (op.extractLsb' 0 8)) with
    | .instr i => some i
    | .unknown _ => none
  else none

end Sys2Proof
end

