-- ==== Sys2Proof/Machine/Params.lean ====
section
/-! DEFINITION. The parameters of spec/00_scope.md R5 and R6: the sizes and the quirk that this hardware fixes, and the
default of `FONT_TABLE`, which stays an argument of the model (`State.font`). They stand here and not in Config.lean
because each is a value an audit may correct. -/

namespace Sys2Proof.Machine

/-- `MEM_SIZE` (R5): the memory has 4096 bytes. -/
def memSize : Nat := 4096

/-- `PROG_BASE` (R5): a program is loaded from 0x200. -/
def progBase : Nat := 0x200

/-- `ROM_MAX` (R5): the longest ROM, 4096 - 0x200 bytes. -/
def romMax : Nat := 3584

/-- `FONT_BASE` (R5, conflict C2): the font table is at 0x050. -/
def fontBase : Nat := 0x050

/-- A value of the parameter `FONT_TABLE` (R6, decision D11): 80 bytes, glyph `d` being bytes `5d .. 5d + 4`
(spec/10_state.md R29). -/
abbrev Font := Vector Byte 80

/-- The default of `FONT_TABLE` (R6, spec/10_state.md R29): sixteen glyphs of five bytes, top row first. The spec takes
these bytes from general knowledge. PRESUMED: notes/assumptions/3.md. -/
def fontTable : Font := Vector.mk (List.toArray <|
  [0xF0, 0x90, 0x90, 0x90, 0xF0] ++ [0x20, 0x60, 0x20, 0x20, 0x70] ++
  [0xF0, 0x10, 0xF0, 0x80, 0xF0] ++ [0xF0, 0x10, 0xF0, 0x10, 0xF0] ++
  [0x90, 0x90, 0xF0, 0x10, 0x10] ++ [0xF0, 0x80, 0xF0, 0x10, 0xF0] ++
  [0xF0, 0x80, 0xF0, 0x90, 0xF0] ++ [0xF0, 0x10, 0x20, 0x40, 0x40] ++
  [0xF0, 0x90, 0xF0, 0x90, 0xF0] ++ [0xF0, 0x90, 0xF0, 0x10, 0xF0] ++
  [0xF0, 0x90, 0xF0, 0x90, 0x90] ++ [0xE0, 0x90, 0xE0, 0x90, 0xE0] ++
  [0xF0, 0x80, 0x80, 0x80, 0xF0] ++ [0xE0, 0x90, 0x90, 0x90, 0xE0] ++
  [0xF0, 0x80, 0xF0, 0x80, 0xF0] ++ [0xF0, 0x80, 0xF0, 0x80, 0x80]) rfl

/-- `QUIRK_LOADSTORE_INC_I` (R6, spec/43_index_memory.md R125): false for this hardware. notes/assumptions/4.md. -/
def quirkLoadStoreIncI : Bool := false

end Sys2Proof.Machine
end

