-- ==== Sys2Proof/Machine/State.lean ====
section
/-! DEFINITION. The state of the machine (spec/10_state.md), the reasons a step could stop, and reset. -/

namespace Sys2Proof.Machine

/-- The reasons a step faults: none. Arithmetic wraps, addresses and key indices are masked, coordinates wrap, fetch
never faults, and the three exceptional conditions are diagnostics after which the machine goes on
(spec/60_exceptions.md R150, R156; spec/40_step_cycle.md R89: "a step is enabled in every state"). -/
inductive Fault where
  deriving DecidableEq, Repr

/-- The reasons a step is refused. -/
inductive Refusal where
  /-- Raised only by an arm of `exec` whose instruction has no meaning yet; no arm is so. Safe: the machine stops where
  the hardware goes on. -/
  | notModelled (mnemonic : String)
  deriving DecidableEq, Repr

/-- The diagnostics a step can report (spec/60_exceptions.md R151). -/
inductive Diag where
  /-- Code 0: no diagnostic in this step. -/
  | none
  /-- Code 1: the opcode decodes to `UNKNOWN` (R152). -/
  | unknownOpcode
  /-- Code 2: `2nnn` with SP = 16 (R153). -/
  | stackOverflow
  /-- Code 3: `00EE` with SP = 0 (R154). -/
  | stackUnderflow
  deriving DecidableEq, Repr

/-- The four outputs of a step (spec/10_state.md R24). -/
structure StepOut where
  /-- This step's timer tick took ST from 1 to 0. -/
  beep : Bool
  /-- The diagnostic this step reported. -/
  diag : Diag
  /-- The opcode that caused the diagnostic; 0 when there is none. -/
  diagInfo : Word
  /-- This step was a wait step. -/
  stalled : Bool
  deriving DecidableEq, Repr

/-- The outputs when nothing is reported (spec/10_state.md R28: reset emits none). -/
def StepOut.idle : StepOut := { beep := false, diag := .none, diagInfo := 0, stalled := false }

/-- The state of the machine: the table of spec/10_state.md, the outputs of the last step, the model's own two fields,
and the parameter `FONT_TABLE`. -/
structure State where
  /-- `V0..VF` (R10); `VF` is the flag (R11). -/
  v : Vector Byte 16
  /-- The index register (R12). -/
  i : Word
  /-- The program counter, a full 16-bit value (R13). -/
  pc : Word
  /-- The number of stack entries in use, 0 to 16 (R15). -/
  sp : Fin 17
  /-- The return addresses (R14). -/
  stack : Vector Word 16
  /-- The delay timer (R16). -/
  dt : Byte
  /-- The sound timer (R17). -/
  st : Byte
  /-- Main memory (R18) in canonical form: the bytes that differ from their reset contents, addresses rising. -/
  mem : List Host.Cell
  /-- The framebuffer (R19): 32 rows, top row first, of 64 one-bit pixels; column `px` of a row is its bit `px`.
  notes/assumptions/9.md. -/
  fb : Vector (BitVec 64) 32
  /-- The redraw flag (R20). -/
  redraw : Bool
  /-- The keypad (R21): bit `k` is set when key `k` is pressed. -/
  key : BitVec 16
  /-- The outputs of the last step (R24). notes/assumptions/5.md. -/
  out : StepOut
  /-- The model's own sticky record that some step reported a diagnostic (spec/60_exceptions.md R150).
  notes/assumptions/6.md. -/
  diagSeen : Bool
  /-- The model's own count of random bytes drawn, the index of the next free value `Config.rnd`.
  notes/assumptions/1.md. -/
  rndIx : Nat
  /-- The parameter `FONT_TABLE` (spec/00_scope.md R6, decision D11), an argument of the model that nothing writes: the
  bytes that reset puts at `FONT_BASE`. notes/assumptions/3.md. -/
  font : Font
  deriving DecidableEq, Repr

/-- The state after reset (spec/10_state.md R28) of a machine whose parameter `FONT_TABLE` is `font`. Memory lists nothing:
every byte reads as its reset contents. -/
def State.resetWith (font : Font) : State where
  v := Vector.replicate 16 0
  i := 0x0000
  pc := 0x0200
  sp := 0
  stack := Vector.replicate 16 0
  dt := 0
  st := 0
  mem := []
  fb := Vector.replicate 32 0
  redraw := false
  key := 0
  out := .idle
  diagSeen := false
  rndIx := 0
  font := font

/-- The state after reset with the parameter `FONT_TABLE` at its default (spec/00_scope.md R6). -/
def State.reset : State := State.resetWith fontTable

end Sys2Proof.Machine
end

