-- ==== Sys2Proof/Machine/Memory.lean ====
section
/-! DEFINITION. The memory of 4096 bytes as a canonical list of cells (spec/20_memory.md R40 to R48). -/

namespace Sys2Proof.Machine

/-- A memory: the cells that differ from their reset contents. -/
abbrev Memory := List Host.Cell

/-- What an address that is not listed reads as, in a machine whose parameter `FONT_TABLE` is `font`: its contents after
reset, which are that table at `FONT_BASE .. FONT_BASE + 79` and zero elsewhere (spec/10_state.md R18, R28). -/
def Memory.resetByte (font : Font) (a : Nat) : Byte :=
  if fontBase ≤ a then (font[a - fontBase]?).getD 0 else 0

/-- The byte at a 12-bit address. -/
def Memory.read (font : Font) : Memory → Nat → Byte
  | [], a => Memory.resetByte font a
  | (k, b) :: m, a => if k = a then b else Memory.read font m a

/-- `m` with the byte at `a` listed in front, unless it is what an unlisted `a` reads as. -/
def Memory.put (font : Font) (a : Nat) (b : Byte) (m : Memory) : Memory :=
  if b = Memory.resetByte font a then m else (a, b) :: m

/-- Store the byte `b` at the 12-bit address `a`, keeping the canonical form. -/
def Memory.write (font : Font) : Memory → Nat → Byte → Memory
  | [], a, b => Memory.put font a b []
  | (k, c) :: m, a, b =>
    if k < a then (k, c) :: Memory.write font m a b
    else if k = a then Memory.put font a b m
    else Memory.put font a b ((k, c) :: m)

/-- The canonical form from address `lo` on: every listed address is at least `lo` and inside the memory, the addresses
rise strictly, and no cell holds what an unlisted address reads as. -/
def Memory.wfFrom (font : Font) : Nat → Memory → Bool
  | _, [] => true
  | lo, (k, b) :: m =>
    decide (lo ≤ k) && decide (k < memSize) && decide (b ≠ Memory.resetByte font k) &&
      Memory.wfFrom font (k + 1) m

/-- The canonical form of a memory, so that equal memories are equal lists. -/
def Memory.wf (font : Font) (m : Memory) : Bool := Memory.wfFrom font 0 m

end Sys2Proof.Machine
end

