-- ==== Sys2Proof/Machine/Ops.lean ====
section
/-! DEFINITION. The shared operations of every meaning: registers, memory, stack, the timer tick, the end of a step and
the report of a diagnostic. -/

namespace Sys2Proof.Machine

/-- The outcome type of every meaning. -/
abbrev Result := Host.Outcome State Fault Refusal

/-- `V[x]` (spec/10_state.md R10). -/
def State.reg (s : State) (x : RegIx) : Byte := s.v[x.toNat]'x.isLt

/-- `V[x] <- b` (spec/10_state.md R10). -/
def State.setReg (s : State) (x : RegIx) (b : Byte) : State := { s with v := s.v.set x.toNat b x.isLt }

/-- The index of `VF` (spec/10_state.md R11). -/
abbrev vf : RegIx := 0xF#4

/-- `V[x] <- b`, then, last, `V[15] <- flag` (spec/42_load_arith_logic.md R113): when `x` is F the flag survives. -/
def State.setRegFlag (s : State) (x : RegIx) (b flag : Byte) : State := (s.setReg x b).setReg vf flag

/-- `I <- w`. -/
def State.setI (s : State) (w : Word) : State := { s with i := w }

/-- `MemRead(a, 1)`: the address is reduced to 12 bits (spec/20_memory.md R41). -/
def State.memRead (s : State) (a : Nat) : Byte := Memory.read s.font s.mem (a % memSize)

/-- `MemWrite(a, 1, b)`: the address is reduced to 12 bits (spec/20_memory.md R41); no address is protected (R47). -/
def State.memWrite (s : State) (a : Nat) (b : Byte) : State :=
  { s with mem := Memory.write s.font s.mem (a % memSize) b }

/-- The memory of `s` is in canonical form. -/
abbrev State.memWf (s : State) : Bool := Memory.wf s.font s.mem

/-- `MemRead(PC, 2)`: big-endian, each of the two addresses reduced to 12 bits (spec/20_memory.md R43,
spec/40_step_cycle.md R81). -/
def State.fetch (s : State) : Word := opcodeOfBytes (s.memRead s.pc.toNat) (s.memRead (s.pc.toNat + 1))

/-- Push a return address: `STACK[SP] <- w ; SP <- SP + 1`, or nothing when the stack is full
(spec/41_control_flow.md R92). -/
def State.push? (s : State) (w : Word) : Option State :=
  if h : s.sp.val < 16 then
    some { s with stack := s.stack.set s.sp.val w h, sp := ⟨s.sp.val + 1, Nat.succ_lt_succ h⟩ }
  else none

/-- Pop a return address: `SP <- SP - 1`, answering `STACK[SP]`, which is not cleared; nothing when the stack is empty
(spec/41_control_flow.md R90). -/
def State.pop? (s : State) : Option (Word × State) :=
  if h : s.sp.val = 0 then none
  else
    have hlt : s.sp.val - 1 < 16 := by have := s.sp.isLt; omega
    some (s.stack[s.sp.val - 1]'hlt, { s with sp := ⟨s.sp.val - 1, Nat.lt_succ_of_lt hlt⟩ })

/-- One timer counts down by 1 while it is not zero (spec/40_step_cycle.md R85). -/
def tickTimer (t : Byte) : Byte := if t = 0 then 0 else t - 1

/-- The sound edge: the tick takes this value of ST from 1 to 0 (spec/40_step_cycle.md R85, conflict C11). -/
def soundEdge (t : Byte) : Bool := t == 1

/-- The common tail of every completed step: `PC <- next`, then the timer tick, then the outputs, with the diagnostic
`d` and its `info` (spec/40_step_cycle.md R83, R85, R86). -/
def State.endStep (s : State) (next : Word) (d : Diag) (info : Word) : State :=
  { s with
    pc := next
    dt := tickTimer s.dt
    st := tickTimer s.st
    out := { beep := soundEdge s.st, diag := d, diagInfo := info, stalled := false }
    diagSeen := s.diagSeen || decide (d ≠ .none) }

/-- The end of a completed step that reports nothing. -/
def State.complete (s : State) (next : Word) : State := s.endStep next .none 0

/-- `next_pc` of an instruction that does not transfer control (spec/40_step_cycle.md R83). -/
def State.pcNext (s : State) : Word := s.pc + 2

/-- `next_pc` of a taken skip (spec/41_control_flow.md R98). -/
def State.pcSkip (s : State) : Word := s.pc + 4

/-- The end of a step of an instruction that does not transfer control. -/
def State.advance (s : State) : State := s.complete s.pcNext

/-- The end of a step of a skip instruction. -/
def State.skipIf (s : State) (c : Bool) : State := s.complete (if c then s.pcSkip else s.pcNext)

/-- `raise d(info)`, the machine's one exceptional event (spec/60_exceptions.md R150): the diagnostic is reported, the
rest of the effect is abandoned, PC advances by 2 and the timers tick. There is no entry to a handler, nothing is saved,
and there is no return from it (R159, R160). -/
def State.raise (s : State) (d : Diag) (info : Word) : State := s.endStep s.pcNext d info

/-- A wait step: nothing changes but the outputs (spec/40_step_cycle.md R84). -/
def State.wait (s : State) : State := { s with out := { StepOut.idle with stalled := true } }

/-- The step input `rnd`: the next free byte (spec/10_state.md R25). -/
def State.rndByte (s : State) : Byte := Config.rnd s.rndIx

/-- The random byte has been used: the next draw is another free byte. -/
def State.rndUsed (s : State) : State := { s with rndIx := s.rndIx + 1 }

/-- The effect of an opcode that decodes to `UNKNOWN` (spec/60_exceptions.md R152). -/
def execUnknown (op : Word) (s : State) : Result := .next (s.raise .unknownOpcode op)

end Sys2Proof.Machine
end

