-- ==== Sys2Proof/Machine/Operands.lean ====
section
/-! DEFINITION. The operand forms: the address `I + k` (spec/43_index_memory.md R124), the sequences of registers of
Fx55 and Fx65, the key index (spec/45_keypad_timers.md R146) and the choice of a pressed key (R142). -/

namespace Sys2Proof.Machine

/-- The unmasked address `I + k` of byte `k` of a transfer; `memRead` and `memWrite` reduce it to 12 bits, byte by byte
(R124). -/
def State.indexed (s : State) (k : Nat) : Nat := s.i.toNat + k

/-- `zext_16(nnn)` (spec/30_encoding.md R63). -/
def zext16 (nnn : Addr12) : Word := nnn.setWidth 16

/-- The quirk of R125 and R126: `I <- (I + x + 1) mod 4096` if `QUIRK_LOADSTORE_INC_I`, which this hardware has not. -/
def State.indexQuirk (s : State) (x : RegIx) : State :=
  if quirkLoadStoreIncI then s.setI (BitVec.ofNat 16 ((s.i.toNat + x.toNat + 1) % 4096)) else s

/-- `MemWrite(I + k, 1, V[k])` for `k` from 0 below `n`, ascending (R125). `I` and the registers are those of `s`: a
store changes neither. -/
def State.storeFirst (s : State) : Nat → State
  | 0 => s
  | n + 1 => (s.storeFirst n).memWrite (s.indexed n) (s.reg (BitVec.ofNat 4 n))

/-- `V[k] <- MemRead(I + k, 1)` for `k` from 0 below `n`, ascending (R126). `I` and the memory are those of `s`: a
load changes neither. -/
def State.loadFirst (s : State) : Nat → State
  | 0 => s
  | n + 1 => (s.loadFirst n).setReg (BitVec.ofNat 4 n) (s.memRead (s.indexed n))

/-- The key that `Ex9E` and `ExA1` test: only the low four bits of `Vx` count (R146). -/
def keyIndex (b : Byte) : Nat := b.toNat % 16

/-- `KEY[k] = 1` (spec/10_state.md R21). -/
def State.keyPressed (s : State) (k : Nat) : Bool := s.key.getLsbD k

/-- The indices, ascending, of the keys pressed in a 16-bit mask. -/
def pressedKeys (pressed : BitVec 16) : List Nat := (List.range 16).filter (fun k => pressed.getLsbD k)

/-- `KeySelect` (R142, decision D15): some pressed key. With one key pressed it is that key; with several it is a free
value among them. notes/assumptions/2.md. With none pressed it is not used. -/
def keySelect (pressed : BitVec 16) : Nat :=
  match pressedKeys pressed with
  | [] => 0
  | [k] => k
  | ks => ks.getD (Config.keyChoice pressed % ks.length) 0

end Sys2Proof.Machine
end

