-- ==== Sys2Proof/Machine/Flags.lean ====
section
/-! DEFINITION. Results and flags of the arithmetic instructions (spec/10_state.md R11, spec/42_load_arith_logic.md
R112): operands are unsigned bytes, the result is reduced mod 256, the flag is 0 or 1. -/

namespace Sys2Proof.Machine

/-- A flag as the byte 0x01 or 0x00 (R11). -/
def flagByte (c : Bool) : Byte := if c then 0x01 else 0x00

/-- 8xy4: the carry out of `a + b` (R106). -/
def carryFlag (a b : Byte) : Byte := flagByte (decide (a.toNat + b.toNat > 255))

/-- 8xy5 and 8xy7: no borrow in `a - b` (R107, R109). -/
def noBorrowFlag (a b : Byte) : Byte := flagByte (decide (a.toNat ≥ b.toNat))

/-- 8xy6: the bit shifted out on the right (R108). -/
def lowBitFlag (a : Byte) : Byte := a &&& 0x01

/-- 8xyE: the bit shifted out on the left (R110). -/
def highBitFlag (a : Byte) : Byte := a >>> 7

/-- Fx1E: the exact sum of index and register (spec/43_index_memory.md R121). -/
def indexSum (i : Word) (a : Byte) : Nat := i.toNat + a.toNat

/-- Fx1E: the sum exceeds 0xFFF (spec/43_index_memory.md R121). -/
def indexOverflowFlag (i : Word) (a : Byte) : Byte := flagByte (decide (indexSum i a > 0xFFF))

/-- `(a + b) mod 256` (R112). -/
def addByte (a b : Byte) : Byte := BitVec.ofNat 8 (a.toNat + b.toNat)

/-- `(a - b) mod 256` (R112): `a - b + 256` when `a < b`. -/
def subByte (a b : Byte) : Byte := BitVec.ofInt 8 ((a.toNat : Int) - (b.toNat : Int))

end Sys2Proof.Machine
end

