-- ==== Sys2Proof/Machine/Arith.lean ====
section
/-! DEFINITION. Register load, arithmetic, logic and random instructions (spec/42_load_arith_logic.md). -/

namespace Sys2Proof.Machine

/-- 6xkk `LD Vx, kk` (R100). -/
def execLdImm (x : RegIx) (kk : Byte) (s : State) : Result := .next (s.setReg x kk).advance

/-- 7xkk `ADD Vx, kk` (R101): no flag. -/
def execAddImm (x : RegIx) (kk : Byte) (s : State) : Result :=
  .next (s.setReg x (addByte (s.reg x) kk)).advance

/-- 8xy0 `LD Vx, Vy` (R102). -/
def execLdReg (x y : RegIx) (s : State) : Result := .next (s.setReg x (s.reg y)).advance

/-- 8xy1 `OR Vx, Vy` (R103): no flag. -/
def execOrReg (x y : RegIx) (s : State) : Result := .next (s.setReg x (s.reg x ||| s.reg y)).advance

/-- 8xy2 `AND Vx, Vy` (R104): no flag. -/
def execAndReg (x y : RegIx) (s : State) : Result := .next (s.setReg x (s.reg x &&& s.reg y)).advance

/-- 8xy3 `XOR Vx, Vy` (R105): no flag. -/
def execXorReg (x y : RegIx) (s : State) : Result := .next (s.setReg x (s.reg x ^^^ s.reg y)).advance

/-- 8xy4 `ADD Vx, Vy` (R106, R113). -/
def execAddReg (x y : RegIx) (s : State) : Result :=
  .next (s.setRegFlag x (addByte (s.reg x) (s.reg y)) (carryFlag (s.reg x) (s.reg y))).advance

/-- 8xy5 `SUB Vx, Vy` (R107, R113). -/
def execSub (x y : RegIx) (s : State) : Result :=
  .next (s.setRegFlag x (subByte (s.reg x) (s.reg y)) (noBorrowFlag (s.reg x) (s.reg y))).advance

/-- 8xy6 `SHR Vx` (R108, R113): `y` is ignored (R62). -/
def execShr (x _y : RegIx) (s : State) : Result :=
  .next (s.setRegFlag x (s.reg x >>> 1) (lowBitFlag (s.reg x))).advance

/-- 8xy7 `SUBN Vx, Vy` (R109, R113). -/
def execSubn (x y : RegIx) (s : State) : Result :=
  .next (s.setRegFlag x (subByte (s.reg y) (s.reg x)) (noBorrowFlag (s.reg y) (s.reg x))).advance

/-- 8xyE `SHL Vx` (R110, R113): `y` is ignored (R62). -/
def execShl (x _y : RegIx) (s : State) : Result :=
  .next (s.setRegFlag x (s.reg x <<< 1) (highBitFlag (s.reg x))).advance

/-- Cxkk `RND Vx, kk` (R111): the random byte is a free value. -/
def execRnd (x : RegIx) (kk : Byte) (s : State) : Result :=
  .next (s.rndUsed.setReg x (s.rndByte &&& kk)).advance

end Sys2Proof.Machine
end

