-- ==== Sys2Proof/Machine/Control.lean ====
section
/-! DEFINITION. The control transfer instructions (spec/41_control_flow.md). -/

namespace Sys2Proof.Machine

/-- 00EE `RET` (R90): an empty stack is reported (R154). -/
def execRet (s : State) : Result :=
  match s.pop? with
  | none => .next (s.raise .stackUnderflow (encode .ret))
  | some (w, s') => .next (s'.complete w)

/-- 1nnn `JP nnn` (R91). -/
def execJp (nnn : Addr12) (s : State) : Result := .next (s.complete (zext16 nnn))

/-- 2nnn `CALL nnn` (R92): pushes the address of the next instruction; a full stack is reported (R153). -/
def execCall (nnn : Addr12) (s : State) : Result :=
  match s.push? s.pcNext with
  | none => .next (s.raise .stackOverflow (encode (.call nnn)))
  | some s' => .next (s'.complete (zext16 nnn))

/-- 3xkk `SE Vx, kk` (R93). -/
def execSeImm (x : RegIx) (kk : Byte) (s : State) : Result := .next (s.skipIf (s.reg x == kk))

/-- 4xkk `SNE Vx, kk` (R94). -/
def execSneImm (x : RegIx) (kk : Byte) (s : State) : Result := .next (s.skipIf (s.reg x != kk))

/-- 5xy0 `SE Vx, Vy` (R95). -/
def execSeReg (x y : RegIx) (s : State) : Result := .next (s.skipIf (s.reg x == s.reg y))

/-- 9xy0 `SNE Vx, Vy` (R96). -/
def execSneReg (x y : RegIx) (s : State) : Result := .next (s.skipIf (s.reg x != s.reg y))

/-- Bnnn `JP V0, nnn` (R97): the sum is not reduced to 12 bits. -/
def execJpV0 (nnn : Addr12) (s : State) : Result :=
  .next (s.complete ((s.reg 0x0#4).setWidth 16 + zext16 nnn))

end Sys2Proof.Machine
end

