-- ==== Sys2Proof/Machine/Display.lean ====
section
/-! DEFINITION. The display instructions and the sprite blitter (spec/44_display.md). -/

namespace Sys2Proof.Machine

/-- A framebuffer: 32 rows of 64 one-bit pixels (spec/10_state.md R19). -/
abbrev Screen := Vector (BitVec 64) 32

/-- The pixel at column `px` and row `py`: `FB[py*64 + px]` of spec/10_state.md R19. -/
def Screen.pixel (fb : Screen) (px : Fin 64) (py : Fin 32) : Bool := (fb[py.val]'py.isLt).getLsbD px.val

/-- XOR a 1 onto the pixel at column `px` and row `py`. -/
def Screen.flip (fb : Screen) (px : Fin 64) (py : Fin 32) : Screen :=
  fb.set py.val ((fb[py.val]'py.isLt) ^^^ BitVec.twoPow 64 px.val) py.isLt

/-- The cleared framebuffer. -/
def Screen.blank : Screen := Vector.replicate 32 0

/-- The pixel of the machine's framebuffer at column `px` and row `py`. -/
def State.pixel (s : State) (px : Fin 64) (py : Fin 32) : Bool := Screen.pixel s.fb px py

/-- The blitter's working state: the framebuffer and the collision seen so far. -/
structure Blit where
  fb : Vector (BitVec 64) 32
  collision : Bool
  deriving DecidableEq, Repr

/-- XOR one set sprite bit onto the pixel at (px, py): a set pixel is a collision (R131, R134). -/
def Blit.plot (b : Blit) (px : Fin 64) (py : Fin 32) : Blit :=
  { fb := Screen.flip b.fb px py, collision := b.collision || Screen.pixel b.fb px py }

/-- Column `c` of a sprite byte is bit `7 - c`: bit 7 is the leftmost pixel (R132). -/
def spriteBit (byte : Byte) (c : Nat) : Bool := byte.getLsbD (7 - c)

/-- The first `n` columns of a sprite row, whose left end is at column `vx` of framebuffer row `vy + r`; both coordinates
wrap, pixel by pixel (R133). -/
def Blit.row (b : Blit) (vx vy r : Nat) (byte : Byte) : Nat → Blit
  | 0 => b
  | c + 1 =>
    let b' := b.row vx vy r byte c
    if spriteBit byte c then b'.plot (Fin.ofNat 64 (vx + c)) (Fin.ofNat 32 (vy + r)) else b'

/-- The first `n` rows of a sprite, row `r` being the byte `rows r` (R131). -/
def Blit.rows (b : Blit) (vx vy : Nat) (rows : Nat → Byte) : Nat → Blit
  | 0 => b
  | r + 1 => (b.rows vx vy rows r).row vx vy r (rows r) 8

/-- The blitter of `Dxyn`: `n` rows read at `I`, drawn at column `vx` and row `vy` (R131 to R135). -/
def State.blit (s : State) (vx vy : Byte) (n : Nib) : Blit :=
  Blit.rows { fb := s.fb, collision := false } vx.toNat vy.toNat (fun r => s.memRead (s.indexed r)) n.toNat

/-- 00E0 `CLS` (R130). -/
def execCls (s : State) : Result :=
  .next ({ s with fb := Screen.blank, redraw := true } : State).advance

/-- Dxyn `DRW Vx, Vy, n` (R131): the coordinates are read first, `VF` is written last. -/
def execDrw (x y : RegIx) (n : Nib) (s : State) : Result :=
  let b := s.blit (s.reg x) (s.reg y) n
  .next (({ s with fb := b.fb, redraw := true } : State).setReg vf (flagByte b.collision)).advance

end Sys2Proof.Machine
end

