-- ==== Sys2Proof/Machine/Index.lean ====
section
/-! DEFINITION. Index register and memory instructions (spec/43_index_memory.md). -/

namespace Sys2Proof.Machine

/-- Annn `LD I, nnn` (R120). -/
def execLdI (nnn : Addr12) (s : State) : Result := .next (s.setI (zext16 nnn)).advance

/-- Fx1E `ADD I, Vx` (R121): `VF` is written last. -/
def execAddI (x : RegIx) (s : State) : Result :=
  let a := s.reg x
  .next ((s.setI (BitVec.ofNat 16 (indexSum s.i a % 4096))).setReg vf (indexOverflowFlag s.i a)).advance

/-- Fx29 `LD F, Vx` (R122, conflict C2): the whole byte of `Vx` counts. -/
def execLdF (x : RegIx) (s : State) : Result :=
  .next (s.setI (BitVec.ofNat 16 (fontBase + 5 * (s.reg x).toNat))).advance

/-- The decimal digits of a byte: hundreds, tens, ones (R123). -/
def bcdDigits (a : Byte) : Byte × Byte × Byte :=
  (BitVec.ofNat 8 (a.toNat / 100), BitVec.ofNat 8 (a.toNat / 10 % 10), BitVec.ofNat 8 (a.toNat % 10))

/-- Fx33 `LD B, Vx` (R123). -/
def execLdB (x : RegIx) (s : State) : Result :=
  let d := bcdDigits (s.reg x)
  .next (((s.memWrite (s.indexed 0) d.1).memWrite (s.indexed 1) d.2.1).memWrite (s.indexed 2) d.2.2).advance

/-- Fx55 `LD [I], Vx` (R125). -/
def execStoreRegs (x : RegIx) (s : State) : Result :=
  .next ((s.storeFirst (x.toNat + 1)).indexQuirk x).advance

/-- Fx65 `LD Vx, [I]` (R126). -/
def execLoadRegs (x : RegIx) (s : State) : Result :=
  .next ((s.loadFirst (x.toNat + 1)).indexQuirk x).advance

end Sys2Proof.Machine
end

