-- ==== Sys2Proof/Machine/Keypad.lean ====
section
/-! DEFINITION. Keypad and timer instructions (spec/45_keypad_timers.md). -/

namespace Sys2Proof.Machine

/-- Ex9E `SKP Vx` (R140). -/
def execSkp (x : RegIx) (s : State) : Result := .next (s.skipIf (s.keyPressed (keyIndex (s.reg x))))

/-- ExA1 `SKNP Vx` (R141). -/
def execSknp (x : RegIx) (s : State) : Result := .next (s.skipIf (!s.keyPressed (keyIndex (s.reg x))))

/-- Fx0A `LD Vx, K` (R142): a wait step while no key is pressed (spec/40_step_cycle.md R84). -/
def execLdVxK (x : RegIx) (s : State) : Result :=
  if s.key = 0 then .next s.wait
  else .next (s.setReg x (BitVec.ofNat 8 (keySelect s.key))).advance

/-- Fx07 `LD Vx, DT` (R143): the value before this step's tick. -/
def execLdVxDt (x : RegIx) (s : State) : Result := .next (s.setReg x s.dt).advance

/-- Fx15 `LD DT, Vx` (R144): this step's tick already counts the new value down. -/
def execLdDtVx (x : RegIx) (s : State) : Result := .next ({ s with dt := s.reg x } : State).advance

/-- Fx18 `LD ST, Vx` (R145): this step's tick already counts the new value down. -/
def execLdStVx (x : RegIx) (s : State) : Result := .next ({ s with st := s.reg x } : State).advance

end Sys2Proof.Machine
end

