-- ==== Sys2Proof/Machine/Step.lean ====
section
/-! DEFINITION. The step (spec/40_step_cycle.md R80 to R87): fetch, decode, then the instruction, which ends with the
PC write, the timer tick and the outputs. -/

namespace Sys2Proof.Machine

/-- One step of the interpreter (R87). -/
def step (s : State) : Host.Outcome State Fault Refusal :=
  match decode s.fetch with
  | .instr i => exec i s
  | .unknown op => execUnknown op s

/-- `s` with the word `w` (the bits above `nbits` zero) stored where `step` fetches: high byte at PC, low byte after it,
both addresses reduced to 12 bits (spec/20_memory.md R43). A program is loaded from outside the machine by the host's
`loadProgram`, for which this stands: notes/assumptions/8.md. -/
def State.withFetchWord (s : State) (nbits w : Nat) : State :=
  let op : Word := BitVec.ofNat 16 (w % 2 ^ nbits)
  (s.memWrite s.pc.toNat (op.extractLsb' 8 8)).memWrite (s.pc.toNat + 1) (op.extractLsb' 0 8)

end Sys2Proof.Machine
end

