-- ==== Sys2Proof/Machine/HostOps.lean ====
section
/-! DEFINITION. The host's operations between steps (spec/40_step_cycle.md R88, spec/70_reset_and_hazards.md R170 to
R176). None of them runs inside a step. notes/assumptions/7.md. -/

namespace Sys2Proof.Machine

/-- The one error of a host operation (spec/60_exceptions.md R155, spec/70_reset_and_hazards.md R174). -/
inductive LoadError where
  /-- The ROM is longer than 3584 bytes. -/
  | tooLarge
  deriving DecidableEq, Repr

/-- `reset()`: every piece of state takes its reset value, whatever it was (R170). The parameter `FONT_TABLE` is as it
was, and the environment's random bytes go on from where they were. -/
def State.hostReset (s : State) : State := { State.resetWith s.font with rndIx := s.rndIx }

/-- Store bytes at ascending addresses from `a` on. -/
def State.storeBytes (s : State) (a : Nat) : List Byte → State
  | [] => s
  | b :: bs => (s.memWrite a b).storeBytes (a + 1) bs

/-- `loadProgram(bytes)`: copy the ROM to 0x200, or fail and change nothing (R173, R174). -/
def State.loadProgram (s : State) (bytes : List Byte) : Except LoadError State :=
  if bytes.length > romMax then .error .tooLarge else .ok (s.storeBytes progBase bytes)

/-- `key_write(k, v)`: `KEY[k] <- v` (R88). -/
def State.keyWrite (s : State) (k : Nib) (down : Bool) : State :=
  { s with key := if down then s.key ||| BitVec.twoPow 16 k.toNat else s.key &&& ~~~BitVec.twoPow 16 k.toNat }

/-- `redraw_clear()`: `REDRAW <- 0` (R88). -/
def State.redrawClear (s : State) : State := { s with redraw := false }

/-- The host's read of `FB`: 64 columns by 32 rows, row-major, so pixel (px, py) is entry `py * 64 + px` (spec/10_state.md
R19, R26). It changes nothing. -/
def State.hostFramebuffer (s : State) : List Bool :=
  (List.range 2048).map (fun k => s.pixel (Fin.ofNat 64 k) (Fin.ofNat 32 (k / 64)))

/-- The host's read of `REDRAW` (spec/10_state.md R26). It changes nothing. -/
def State.hostRedraw (s : State) : Bool := s.redraw

/-- The host's operations that can change the state. -/
inductive HostOp where
  /-- `reset()`. -/
  | reset
  /-- `loadProgram(bytes)`. -/
  | loadProgram (bytes : List Byte)
  /-- `key_write(k, v)`. -/
  | keyWrite (k : Nib) (down : Bool)
  /-- `redraw_clear()`. -/
  | redrawClear
  deriving DecidableEq, Repr

/-- What a host operation leaves: a failed load leaves the state as it was (R174). -/
def State.hostOp (s : State) : HostOp → State
  | .reset => s.hostReset
  | .loadProgram bytes =>
    match s.loadProgram bytes with
    | .ok s' => s'
    | .error _ => s
  | .keyWrite k down => s.keyWrite k down
  | .redrawClear => s.redrawClear

/-- `Launch(rom)` of a machine whose parameter `FONT_TABLE` is `font`: the state from which a program runs (R176); none for
a ROM that is too large. -/
def launch (font : Font) (rom : List Byte) : Option State :=
  match (State.resetWith font).loadProgram rom with
  | .ok s => some s
  | .error _ => none

end Sys2Proof.Machine
end

