-- ==== Sys2Proof/Safety.lean ====
section
/-! DEFINITION. What claims speak of: the invariant, the reachable states, a run without a diagnostic, a program that
has ended. -/

namespace Sys2Proof.Machine

/-- The invariant: `I <= 0x0FFF`, which is what spec/10_state.md R27 says and the types do not (SP in 0..16, one-bit pixels,
keys and `REDRAW` are the types' own); and memory is in the canonical form of the model's own representation of it
(notes/assumptions/13.md). -/
def Inv (s : State) : Prop := s.memWf = true ∧ s.i.toNat ≤ 0xFFF

/-- The states a run can reach: from reset, by steps and by host operations in any order (spec/40_step_cycle.md R88,
spec/70_reset_and_hazards.md R171). -/
inductive Reachable : State → Prop where
  /-- Every run begins with reset, with some value of the parameter `FONT_TABLE`. -/
  | reset (font : Font) : Reachable (State.resetWith font)
  /-- The interpreter takes a step. -/
  | step {s t : State} (hs : Reachable s) (h : step s = .next t) : Reachable t
  /-- The host performs an operation between two steps. -/
  | host {s : State} (hs : Reachable s) (op : HostOp) : Reachable (s.hostOp op)

/-- A run is clean so far: no step has reported a diagnostic, the premise that spec/60_exceptions.md R150 asks claims to
take. -/
def Clean (s : State) : Prop := s.diagSeen = false

/-- The program has ended: the instruction at PC is a jump to itself (spec/40_step_cycle.md R89). -/
def Spinning (s : State) : Prop :=
  s.fetch = 0x1000#16 ||| (s.pc &&& 0x0FFF#16) ∧ s.pc.toNat ≤ 0xFFF

/-! The vocabulary of the statements. -/

/-- The opcode at PC as spec/20_memory.md R43 writes it: the byte at `PC & 0xFFF` is the high byte, the byte at
`(PC + 1) & 0xFFF` the low byte. -/
def opAt (s : State) : Word :=
  BitVec.ofNat 16 ((Memory.read s.font s.mem (s.pc.toNat % 4096)).toNat * 256 +
    (Memory.read s.font s.mem ((s.pc.toNat + 1) % 4096)).toNat)

/-- `STACK[k]` (spec/10_state.md R14). -/
def State.entry (s : State) (k : Fin 16) : Word := s.stack[k.val]'k.isLt

/-- Every `V` register outside `written` holds its old value. -/
def RegsKept (s t : State) (written : List RegIx) : Prop := ∀ r, r ∉ written → t.reg r = s.reg r

/-- Every byte of memory reads as before. -/
def MemKept (s t : State) : Prop := ∀ a, t.memRead a = s.memRead a

/-- SP and every stack entry are as before. -/
def StackKept (s t : State) : Prop := t.sp = s.sp ∧ ∀ k, t.entry k = s.entry k

/-- Every pixel and the redraw flag are as before. -/
def ScreenKept (s t : State) : Prop := (∀ px py, t.pixel px py = s.pixel px py) ∧ t.redraw = s.redraw

/-- The keypad is as before (spec/10_state.md R21) and no random byte has been drawn (R25; the count of bytes drawn is
the model's own field, notes/assumptions/1.md); the parameter `FONT_TABLE` is the same (notes/assumptions/3.md). -/
def InputsKept (s t : State) : Prop := t.key = s.key ∧ t.rndIx = s.rndIx ∧ t.font = s.font

/-- Nothing has changed but the registers in `written`, PC, the timers and the outputs. -/
def OnlyRegs (s t : State) (written : List RegIx) : Prop :=
  RegsKept s t written ∧ t.i = s.i ∧ StackKept s t ∧ MemKept s t ∧ ScreenKept s t ∧ InputsKept s t

/-- The end of a completed step (spec/40_step_cycle.md R83, R85, R86): PC is `next`; each timer is one below the value
`dt`, `st` it had when the effect was done, stopping at 0; `beep` tells whether ST went from 1 to 0; the diagnostic is
`d` with `info`; the step did not stall. (What the model's own sticky record does is the statement
`DiagnosticsExactlyWhenRaised`.) -/
def Ends (t : State) (next : Word) (dt st : Byte) (d : Diag) (info : Word) : Prop :=
  t.pc = next ∧ t.dt.toNat = dt.toNat - 1 ∧ t.st.toNat = st.toNat - 1 ∧ (t.out.beep = true ↔ st.toNat = 1) ∧
    t.out.diag = d ∧ t.out.diagInfo = info ∧ t.out.stalled = false

/-- A completed step that writes no timer and reports nothing. -/
def Completes (s t : State) (next : Word) : Prop := Ends t next s.dt s.st .none 0

/-- A completed step that only reports the diagnostic `d` (spec/60_exceptions.md R150). -/
def Reports (s t : State) (d : Diag) (info : Word) : Prop := Ends t (s.pc + 2) s.dt s.st d info ∧ OnlyRegs s t []

/-- The instructions of the table of spec/10_state.md R11, which write `VF` as a flag. -/
def writesFlag : Instr → Bool
  | .addReg _ _ => true
  | .sub _ _ => true
  | .shr _ _ => true
  | .subn _ _ => true
  | .shl _ _ => true
  | .drw _ _ _ => true
  | .addI _ => true
  | _ => false

/-- The `V` registers that an instruction names as its destination, flags apart. -/
def destinations : Instr → List RegIx
  | .ldImm x _ => [x]
  | .addImm x _ => [x]
  | .ldReg x _ => [x]
  | .orReg x _ => [x]
  | .andReg x _ => [x]
  | .xorReg x _ => [x]
  | .addReg x _ => [x]
  | .sub x _ => [x]
  | .shr x _ => [x]
  | .subn x _ => [x]
  | .shl x _ => [x]
  | .rnd x _ => [x]
  | .ldVxDt x => [x]
  | .ldVxK x => [x]
  | .loadRegs x => (List.range (x.toNat + 1)).map (BitVec.ofNat 4)
  | _ => []

/-- The sprite of `Dxyn` in state `s` has a set bit on the pixel at column `px` and row `py` (spec/44_display.md R132,
R133). -/
def Covers (s : State) (x y : RegIx) (n : Nib) (px : Fin 64) (py : Fin 32) : Prop :=
  ∃ r c : Nat, r < n.toNat ∧ c < 8 ∧ px.val = ((s.reg x).toNat + c) % 64 ∧ py.val = ((s.reg y).toNat + r) % 32 ∧
    (s.memRead (s.i.toNat + r)).getLsbD (7 - c) = true

/-- The value of PC after a step, by class (the table of spec/10_state.md R13). -/
def pcAfter (s : State) : Decoded → Word
  | .instr (.jp nnn) => BitVec.ofNat 16 nnn.toNat
  | .instr (.call nnn) => if s.sp.val = 16 then s.pc + 2 else BitVec.ofNat 16 nnn.toNat
  | .instr .ret => if s.sp.val = 0 then s.pc + 2 else s.entry (Fin.ofNat 16 (s.sp.val - 1))
  | .instr (.jpV0 nnn) => BitVec.ofNat 16 ((s.reg 0).toNat + nnn.toNat)
  | .instr (.seImm x kk) => if s.reg x = kk then s.pc + 4 else s.pc + 2
  | .instr (.sneImm x kk) => if s.reg x = kk then s.pc + 2 else s.pc + 4
  | .instr (.seReg x y) => if s.reg x = s.reg y then s.pc + 4 else s.pc + 2
  | .instr (.sneReg x y) => if s.reg x = s.reg y then s.pc + 2 else s.pc + 4
  | .instr (.skp x) => if s.key.getLsbD ((s.reg x).toNat % 16) = true then s.pc + 4 else s.pc + 2
  | .instr (.sknp x) => if s.key.getLsbD ((s.reg x).toNat % 16) = true then s.pc + 2 else s.pc + 4
  | .instr (.ldVxK _) => if s.key = 0 then s.pc else s.pc + 2
  | _ => s.pc + 2

end Sys2Proof.Machine
end

