-- ==== Sys2Proof/Certificates/Slice0/Obligations.lean ====
section
/-! DEFINITION. The statements for the provers, each from a rule of spec/. -/

open Sys2Proof Sys2Proof.Machine

/-! ## Encoding -/

/-- spec/30_encoding.md R64, R65: the decoder reads every instruction back from its own word, whatever its operands. -/
def Obligations.DecodeOfEncode : Prop := ∀ i : Instr, decode (encode i) = .instr i

/-- spec/30_encoding.md R61, R64: a word that decodes to an instruction is that instruction's word, so no bit of it is
dropped. -/
def Obligations.EncodeOfDecode : Prop := ∀ (op : Word) (i : Instr), decode op = .instr i → encode i = op

/-- spec/30_encoding.md R64: the decoder is total and follows the 34 rows of the opcode map, whose match sets are
disjoint. That groups 5 and 9 check the low nibble is the spec's decision D7. -/
def Obligations.DecodeFollowsOpcodeMap : Prop :=
  opcodeMap.length = 34 ∧ (opcodeMap.map opcodeRow).Nodup ∧ (∀ i, opcodeRow i ∈ opcodeMap.map opcodeRow) ∧
  ∀ op : Word,
    (∀ i, decode op = .instr i → matchesRowOf op i) ∧
    (∀ j, matchesRowOf op j → ∃ i, decode op = .instr i ∧ opcodeRow i = opcodeRow j) ∧
    (∀ j k, matchesRowOf op j → matchesRowOf op k → opcodeRow j = opcodeRow k) ∧
    ((∀ j, ¬ matchesRowOf op j) → decode op = .unknown op)

/-- spec/30_encoding.md R66: group 0. R67: group 8. R68: group E. R69: group F. -/
def Obligations.NestedGroupsDecode : Prop :=
  (∀ nnn : Addr12, decode (BitVec.ofNat 16 nnn.toNat) =
    if nnn = 0x0E0#12 then .instr .cls else if nnn = 0x0EE#12 then .instr .ret
    else .unknown (BitVec.ofNat 16 nnn.toNat)) ∧
  (∀ (x y : RegIx) (n : Nib), ∀ op, op = BitVec.ofNat 16 (0x8000 + x.toNat * 0x100 + y.toNat * 0x10 + n.toNat) →
    (n = 0x0#4 → decode op = .instr (.ldReg x y)) ∧ (n = 0x1#4 → decode op = .instr (.orReg x y)) ∧
    (n = 0x2#4 → decode op = .instr (.andReg x y)) ∧ (n = 0x3#4 → decode op = .instr (.xorReg x y)) ∧
    (n = 0x4#4 → decode op = .instr (.addReg x y)) ∧ (n = 0x5#4 → decode op = .instr (.sub x y)) ∧
    (n = 0x6#4 → decode op = .instr (.shr x y)) ∧ (n = 0x7#4 → decode op = .instr (.subn x y)) ∧
    (n = 0xE#4 → decode op = .instr (.shl x y)) ∧
    (n ∈ [0x8#4, 0x9#4, 0xA#4, 0xB#4, 0xC#4, 0xD#4, 0xF#4] → decode op = .unknown op)) ∧
  (∀ (x : RegIx) (kk : Byte), ∀ op, op = BitVec.ofNat 16 (0xE000 + x.toNat * 0x100 + kk.toNat) →
    (kk = 0x9E#8 → decode op = .instr (.skp x)) ∧ (kk = 0xA1#8 → decode op = .instr (.sknp x)) ∧
    (kk ∉ [0x9E#8, 0xA1#8] → decode op = .unknown op)) ∧
  (∀ (x : RegIx) (kk : Byte), ∀ op, op = BitVec.ofNat 16 (0xF000 + x.toNat * 0x100 + kk.toNat) →
    (kk = 0x07#8 → decode op = .instr (.ldVxDt x)) ∧ (kk = 0x0A#8 → decode op = .instr (.ldVxK x)) ∧
    (kk = 0x15#8 → decode op = .instr (.ldDtVx x)) ∧ (kk = 0x18#8 → decode op = .instr (.ldStVx x)) ∧
    (kk = 0x1E#8 → decode op = .instr (.addI x)) ∧ (kk = 0x29#8 → decode op = .instr (.ldF x)) ∧
    (kk = 0x33#8 → decode op = .instr (.ldB x)) ∧ (kk = 0x55#8 → decode op = .instr (.storeRegs x)) ∧
    (kk = 0x65#8 → decode op = .instr (.loadRegs x)) ∧
    (kk ∉ [0x07#8, 0x0A#8, 0x15#8, 0x18#8, 0x1E#8, 0x29#8, 0x33#8, 0x55#8, 0x65#8] → decode op = .unknown op))

/-- Words of spec/95_test_vectors.md, one or more of each family, decode to the instructions they stand for. That 0x5121
and 0x9AB1 are UNKNOWN, because the low nibble is checked, is the spec's decision D7. -/
def Obligations.SampleWordsDecode : Prop :=
  decode 0x6A05#16 = .instr (.ldImm 0xA#4 0x05#8) ∧ decode 0x8AB4#16 = .instr (.addReg 0xA#4 0xB#4) ∧
  decode 0x220A#16 = .instr (.call 0x20A#12) ∧ decode 0x3100#16 = .instr (.seImm 0x1#4 0x00#8) ∧
  decode 0xF265#16 = .instr (.loadRegs 0x2#4) ∧ decode 0xA300#16 = .instr (.ldI 0x300#12) ∧
  decode 0xD125#16 = .instr (.drw 0x1#4 0x2#4 0x5#4) ∧ decode 0xF30A#16 = .instr (.ldVxK 0x3#4) ∧
  decode 0xF015#16 = .instr (.ldDtVx 0x0#4) ∧ decode 0x00FF#16 = .unknown 0x00FF#16 ∧
  decode 0x5121#16 = .unknown 0x5121#16 ∧ decode 0x9AB1#16 = .unknown 0x9AB1#16

/-! ## The step -/

/-- spec/40_step_cycle.md R81, R82: the step runs the instruction that the two bytes at PC decode to. -/
def Obligations.StepRunsFetchedInstruction : Prop :=
  ∀ (s : State) (i : Instr), decode (opAt s) = .instr i → step s = exec i s

/-- spec/60_exceptions.md R152: an opcode that matches no row is reported and skipped, and nothing else changes. -/
def Obligations.UnknownOpcodeIsReportedAndSkipped : Prop :=
  ∀ s : State, (∀ i, ¬ matchesRowOf (opAt s) i) →
    ∃ t, step s = .next t ∧ Reports s t .unknownOpcode (opAt s)

/-- spec/40_step_cycle.md R89, spec/60_exceptions.md R156: a step is enabled in every state; it never stops. -/
def Obligations.EveryStepAnswersNext : Prop := ∀ s : State, ∃ t, step s = .next t

/-- Every step keeps the invariant, from any state that meets it: `I <= 0x0FFF` (spec/10_state.md R27), and memory in
canonical form, a clause that is the model's own (its representation of memory, notes/assumptions/13.md). -/
def Obligations.StepKeepsInvariant : Prop := ∀ s t : State, Inv s → step s = .next t → Inv t

/-- The state after reset meets the invariant, whatever the font: `I <= 0x0FFF` (spec/10_state.md R27), and memory in
canonical form, a clause that is the model's own (notes/assumptions/13.md). -/
def Obligations.ResetMeetsInvariant : Prop := ∀ font : Font, Inv (State.resetWith font)

/-- Every host operation keeps the invariant, from any state that meets it, and so every state reachable by steps and host
operations in any order (spec/40_step_cycle.md R88) meets it: `I <= 0x0FFF` (spec/10_state.md R27), and memory in
canonical form, a clause that is the model's own (notes/assumptions/13.md). -/
def Obligations.ReachableStatesMeetInvariant : Prop :=
  (∀ (s : State) (op : HostOp), Inv s → Inv (s.hostOp op)) ∧ ∀ s : State, Reachable s → Inv s

/-- spec/10_state.md R11: after a flag-writing instruction `VF` is 0 or 1, whatever its operands. -/
def Obligations.FlagInstructionsLeaveVFZeroOrOne : Prop :=
  ∀ (i : Instr) (s : State), writesFlag i = true →
    ∃ t, exec i s = .next t ∧ (t.reg 0xF#4 = 0 ∨ t.reg 0xF#4 = 1)

/-- spec/10_state.md R11: no other instruction changes `VF` unless it names it as its destination; and no instruction at
all changes a register that is neither its destination nor the flag. -/
def Obligations.RegistersChangeOnlyAsDestinationOrFlag : Prop :=
  ∀ (i : Instr) (s t : State), exec i s = .next t → ∀ r, r ∉ destinations i →
    (r ≠ 0xF#4 ∨ writesFlag i = false) → t.reg r = s.reg r

/-- spec/40_step_cycle.md R85: every completed step, one that reports a diagnostic included (decision D20), ticks both
timers once, after the effect; `Fx07` reads DT before the tick. -/
def Obligations.CompletedStepsTickTimers : Prop :=
  ∀ s t : State, step s = .next t → t.out.stalled = false →
    (∀ dt, dt = (match decode (opAt s) with | .instr (.ldDtVx x) => s.reg x | _ => s.dt) →
      t.dt.toNat = dt.toNat - 1) ∧
    (∀ st, st = (match decode (opAt s) with | .instr (.ldStVx x) => s.reg x | _ => s.st) →
      t.st.toNat = st.toNat - 1 ∧ (t.out.beep = true ↔ st.toNat = 1)) ∧
    (∀ x, decode (opAt s) = .instr (.ldVxDt x) → t.reg x = s.dt)

/-- spec/40_step_cycle.md R84 (decision D16): `Fx0A` with no key pressed is a wait step: nothing changes but the outputs,
and the next step is the same wait step again. -/
def Obligations.WaitStepChangesNothing : Prop :=
  ∀ (s : State) (x : RegIx), decode (opAt s) = .instr (.ldVxK x) → s.key = 0 →
    ∃ t, step s = .next t ∧ t = { s with out := ⟨false, .none, 0, true⟩ } ∧ step t = .next t

/-- spec/10_state.md R24: `stalled` is 1 exactly on a wait step. -/
def Obligations.StalledExactlyOnWaitSteps : Prop :=
  ∀ s t : State, step s = .next t →
    (t.out.stalled = true ↔ s.key = 0 ∧ ∃ x, decode (opAt s) = .instr (.ldVxK x))

/-- spec/60_exceptions.md R151, R158: exactly which steps report which diagnostic, and with what `diag_info`; and a run is
still clean exactly if it was and this step reported none (the sticky record R150 asks a model to keep, the model's own
field, notes/assumptions/6.md). -/
def Obligations.DiagnosticsExactlyWhenRaised : Prop :=
  ∀ s t : State, step s = .next t →
    (t.out.diag = .unknownOpcode ↔ ∀ i, ¬ matchesRowOf (opAt s) i) ∧
    (t.out.diag = .stackOverflow ↔ s.sp.val = 16 ∧ ∃ nnn, decode (opAt s) = .instr (.call nnn)) ∧
    (t.out.diag = .stackUnderflow ↔ s.sp.val = 0 ∧ opAt s = 0x00EE#16) ∧
    t.out.diagInfo = (if t.out.diag = .none then 0 else opAt s) ∧
    (Clean t ↔ Clean s ∧ t.out.diag = .none)

/-- spec/60_exceptions.md R150: a step that reports a diagnostic has no effect but PC + 2, the timer tick and the
outputs. -/
def Obligations.DiagnosticStepOnlyAdvances : Prop :=
  ∀ s t : State, step s = .next t → t.out.diag ≠ .none →
    Reports s t t.out.diag (opAt s)

/-- spec/10_state.md R19, R20: every clear and every draw sets REDRAW, no other step changes the framebuffer or REDRAW,
only the host clears the flag, and reset leaves it 0. -/
def Obligations.OnlyClearAndDrawTouchScreen : Prop :=
  (∀ s t : State, step s = .next t →
    (decode (opAt s) = .instr .cls ∨ (∃ x y n, decode (opAt s) = .instr (.drw x y n)) → t.redraw = true) ∧
    (decode (opAt s) ≠ .instr .cls → (∀ x y n, decode (opAt s) ≠ .instr (.drw x y n)) → ScreenKept s t)) ∧
  (∀ s : State, s.redrawClear.redraw = false) ∧ ∀ font : Font, (State.resetWith font).redraw = false

/-- spec/20_memory.md R40, R46: no step but `Fx33` and `Fx55` changes a byte of memory. -/
def Obligations.OnlyStoresWriteMemory : Prop :=
  ∀ s t : State, step s = .next t →
    (∀ x, decode (opAt s) ≠ .instr (.ldB x)) → (∀ x, decode (opAt s) ≠ .instr (.storeRegs x)) → MemKept s t

/-- spec/10_state.md R14, R15: only `2nnn` writes a stack entry, and only the one at SP; only `2nnn` and `00EE` change
SP. -/
def Obligations.OnlyCallAndReturnTouchStack : Prop :=
  ∀ s t : State, step s = .next t →
    ((∀ nnn, decode (opAt s) ≠ .instr (.call nnn)) → ∀ k, t.entry k = s.entry k) ∧
    (∀ k, k.val ≠ s.sp.val → t.entry k = s.entry k) ∧
    ((∀ nnn, decode (opAt s) ≠ .instr (.call nnn)) → decode (opAt s) ≠ .instr .ret → t.sp = s.sp)

/-- spec/10_state.md R21: no step changes the keypad. Only `Cxkk` uses a random byte (R25; the count of bytes drawn is the
model's own field, notes/assumptions/1.md). No step and no host operation changes the parameter `FONT_TABLE`
(notes/assumptions/3.md). -/
def Obligations.StepsReadInputsOnly : Prop :=
  (∀ s t : State, step s = .next t →
    t.key = s.key ∧ ((∀ x kk, decode (opAt s) ≠ .instr (.rnd x kk)) → t.rndIx = s.rndIx) ∧ t.font = s.font) ∧
  ∀ (s : State) (op : HostOp), (s.hostOp op).font = s.font

/-- spec/10_state.md R13: how each instruction class sets PC, and its reset value. That PC is not masked and wraps at 16
bits is the spec's decision D2. -/
def Obligations.NextPcByClass : Prop :=
  (∀ s t : State, step s = .next t → t.pc = pcAfter s (decode (opAt s))) ∧
  ∀ font : Font, (State.resetWith font).pc = 0x0200#16

/-- spec/10_state.md R12: no step but `Annn`, `Fx1E` and `Fx29` changes `I`. That `Fx55` and `Fx65` do not rests on the
quirk parameter being false, the spec's default and decision D17 (notes/assumptions/4.md). -/
def Obligations.OnlyIndexInstructionsWriteI : Prop :=
  ∀ s t : State, step s = .next t →
    (∀ nnn, decode (opAt s) ≠ .instr (.ldI nnn)) → (∀ x, decode (opAt s) ≠ .instr (.addI x)) →
    (∀ x, decode (opAt s) ≠ .instr (.ldF x)) → t.i = s.i

/-- spec/70_reset_and_hazards.md R185, spec/10_state.md R17: a program can read neither REDRAW nor ST: two states that
differ only in these step to states that differ at most in these and in `beep`. (Both steps are given the same random
byte, `Config.rnd` at the same count: notes/assumptions/1.md.) -/
def Obligations.RedrawAndSoundTimerAreUnreadable : Prop :=
  ∀ (s t : State) (b : Bool) (st : Byte), step s = .next t →
    ∃ t', step { s with redraw := b, st := st } = .next t' ∧
      t' = { t with redraw := t'.redraw, st := t'.st, out := { t.out with beep := t'.out.beep } }

/-! ## Control transfer -/

/-- spec/41_control_flow.md R90, spec/60_exceptions.md R154: report and skip is the spec's decision D6. -/
def Obligations.ReturnPopsOrReports : Prop :=
  decode 0x00EE#16 = .instr .ret ∧
  (∀ (s : State) (k : Fin 16), s.sp.val = k.val + 1 → ∃ t, exec .ret s = .next t ∧ t.sp.val = k.val ∧
    (∀ j, t.entry j = s.entry j) ∧ Completes s t (s.entry k) ∧
    RegsKept s t [] ∧ t.i = s.i ∧ MemKept s t ∧ ScreenKept s t ∧ InputsKept s t) ∧
  (∀ s : State, s.sp.val = 0 → ∃ t, exec .ret s = .next t ∧ Reports s t .stackUnderflow 0x00EE#16)

/-- spec/41_control_flow.md R91. -/
def Obligations.JumpSetsPc : Prop :=
  ∀ (nnn : Addr12) (s : State), decode (BitVec.ofNat 16 (0x1000 + nnn.toNat)) = .instr (.jp nnn) ∧
    ∃ t, exec (.jp nnn) s = .next t ∧ Completes s t (BitVec.ofNat 16 nnn.toNat) ∧ OnlyRegs s t []

/-- spec/41_control_flow.md R92, spec/60_exceptions.md R153: the pushed address is the spec's decision D4, reject and
report its decision D5. -/
def Obligations.CallPushesOrReports : Prop :=
  ∀ nnn : Addr12, decode (BitVec.ofNat 16 (0x2000 + nnn.toNat)) = .instr (.call nnn) ∧
  (∀ (s : State) (k : Fin 16), s.sp.val = k.val → ∃ t, exec (.call nnn) s = .next t ∧ t.sp.val = k.val + 1 ∧
    t.entry k = s.pc + 2 ∧ (∀ j, j ≠ k → t.entry j = s.entry j) ∧ Completes s t (BitVec.ofNat 16 nnn.toNat) ∧
    RegsKept s t [] ∧ t.i = s.i ∧ MemKept s t ∧ ScreenKept s t ∧ InputsKept s t) ∧
  (∀ s : State, s.sp.val = 16 → ∃ t, exec (.call nnn) s = .next t ∧
    Reports s t .stackOverflow (BitVec.ofNat 16 (0x2000 + nnn.toNat)))

/-- spec/41_control_flow.md R90, R92, conflict C3: a return at the target of an accepted call resumes after the call, with
the stack pointer restored. -/
def Obligations.ReturnAfterCallResumes : Prop :=
  ∀ (nnn : Addr12) (s : State), s.sp.val < 16 →
    ∃ t u, exec (.call nnn) s = .next t ∧ exec .ret t = .next u ∧ u.pc = s.pc + 2 ∧ u.sp = s.sp ∧
      RegsKept s u [] ∧ MemKept s u

/-- spec/41_control_flow.md R93, R94. -/
def Obligations.SkipOnImmediate : Prop :=
  ∀ (x : RegIx) (kk : Byte) (s : State),
    decode (BitVec.ofNat 16 (0x3000 + x.toNat * 0x100 + kk.toNat)) = .instr (.seImm x kk) ∧
    decode (BitVec.ofNat 16 (0x4000 + x.toNat * 0x100 + kk.toNat)) = .instr (.sneImm x kk) ∧
    (∃ t, exec (.seImm x kk) s = .next t ∧ OnlyRegs s t [] ∧
      Completes s t (if s.reg x = kk then s.pc + 4 else s.pc + 2)) ∧
    (∃ t, exec (.sneImm x kk) s = .next t ∧ OnlyRegs s t [] ∧
      Completes s t (if s.reg x ≠ kk then s.pc + 4 else s.pc + 2))

/-- spec/41_control_flow.md R95, R96. -/
def Obligations.SkipOnRegister : Prop :=
  ∀ (x y : RegIx) (s : State),
    decode (BitVec.ofNat 16 (0x5000 + x.toNat * 0x100 + y.toNat * 0x10)) = .instr (.seReg x y) ∧
    decode (BitVec.ofNat 16 (0x9000 + x.toNat * 0x100 + y.toNat * 0x10)) = .instr (.sneReg x y) ∧
    (∀ n : Nib, n ≠ 0 → ∀ op, (op = BitVec.ofNat 16 (0x5000 + x.toNat * 0x100 + y.toNat * 0x10 + n.toNat) ∨
      op = BitVec.ofNat 16 (0x9000 + x.toNat * 0x100 + y.toNat * 0x10 + n.toNat)) → decode op = .unknown op) ∧
    (∃ t, exec (.seReg x y) s = .next t ∧ OnlyRegs s t [] ∧
      Completes s t (if s.reg x = s.reg y then s.pc + 4 else s.pc + 2)) ∧
    (∃ t, exec (.sneReg x y) s = .next t ∧ OnlyRegs s t [] ∧
      Completes s t (if s.reg x ≠ s.reg y then s.pc + 4 else s.pc + 2))

/-- spec/41_control_flow.md R97: the sum is not reduced to 12 bits, the spec's decision D2. -/
def Obligations.JumpWithOffset : Prop :=
  ∀ (nnn : Addr12) (s : State), decode (BitVec.ofNat 16 (0xB000 + nnn.toNat)) = .instr (.jpV0 nnn) ∧
    ∃ t, exec (.jpV0 nnn) s = .next t ∧ t.pc.toNat = (s.reg 0#4).toNat + nnn.toNat ∧ Completes s t t.pc ∧
      OnlyRegs s t []

/-! ## Load, arithmetic, logic, random -/

/-- spec/42_load_arith_logic.md R100, R102. -/
def Obligations.LoadImmediateAndCopy : Prop :=
  (∀ (x : RegIx) (kk : Byte) (s : State),
    decode (BitVec.ofNat 16 (0x6000 + x.toNat * 0x100 + kk.toNat)) = .instr (.ldImm x kk) ∧
    ∃ t, exec (.ldImm x kk) s = .next t ∧ t.reg x = kk ∧ Completes s t (s.pc + 2) ∧ OnlyRegs s t [x]) ∧
  (∀ (x y : RegIx) (s : State),
    decode (BitVec.ofNat 16 (0x8000 + x.toNat * 0x100 + y.toNat * 0x10)) = .instr (.ldReg x y) ∧
    ∃ t, exec (.ldReg x y) s = .next t ∧ t.reg x = s.reg y ∧ Completes s t (s.pc + 2) ∧ OnlyRegs s t [x])

/-- spec/42_load_arith_logic.md R101: no flag, even when the sum wraps. -/
def Obligations.AddImmediateWraps : Prop :=
  ∀ (x : RegIx) (kk : Byte) (s : State),
    decode (BitVec.ofNat 16 (0x7000 + x.toNat * 0x100 + kk.toNat)) = .instr (.addImm x kk) ∧
    ∃ t, exec (.addImm x kk) s = .next t ∧ (t.reg x).toNat = ((s.reg x).toNat + kk.toNat) % 256 ∧
      Completes s t (s.pc + 2) ∧ OnlyRegs s t [x]

/-- spec/42_load_arith_logic.md R103, R104, R105: bit by bit, and no flag. -/
def Obligations.LogicIsBitwise : Prop :=
  ∀ (x y : RegIx) (s : State),
    decode (BitVec.ofNat 16 (0x8001 + x.toNat * 0x100 + y.toNat * 0x10)) = .instr (.orReg x y) ∧
    decode (BitVec.ofNat 16 (0x8002 + x.toNat * 0x100 + y.toNat * 0x10)) = .instr (.andReg x y) ∧
    decode (BitVec.ofNat 16 (0x8003 + x.toNat * 0x100 + y.toNat * 0x10)) = .instr (.xorReg x y) ∧
    (∃ t, exec (.orReg x y) s = .next t ∧
      (∀ j, (t.reg x).getLsbD j = ((s.reg x).getLsbD j || (s.reg y).getLsbD j)) ∧
      Completes s t (s.pc + 2) ∧ OnlyRegs s t [x]) ∧
    (∃ t, exec (.andReg x y) s = .next t ∧
      (∀ j, (t.reg x).getLsbD j = ((s.reg x).getLsbD j && (s.reg y).getLsbD j)) ∧
      Completes s t (s.pc + 2) ∧ OnlyRegs s t [x]) ∧
    (∃ t, exec (.xorReg x y) s = .next t ∧
      (∀ j, (t.reg x).getLsbD j = ((s.reg x).getLsbD j ^^ (s.reg y).getLsbD j)) ∧
      Completes s t (s.pc + 2) ∧ OnlyRegs s t [x])

/-- spec/42_load_arith_logic.md R106, R113: `VF` is the carry, whatever the destination; another destination holds the
sum mod 256. -/
def Obligations.AddSetsCarry : Prop :=
  ∀ (x y : RegIx) (s : State),
    decode (BitVec.ofNat 16 (0x8004 + x.toNat * 0x100 + y.toNat * 0x10)) = .instr (.addReg x y) ∧
    ∃ t, exec (.addReg x y) s = .next t ∧
      (x ≠ 0xF#4 → (t.reg x).toNat = ((s.reg x).toNat + (s.reg y).toNat) % 256) ∧
      (t.reg 0xF#4).toNat = (if (s.reg x).toNat + (s.reg y).toNat > 255 then 1 else 0) ∧
      Completes s t (s.pc + 2) ∧ OnlyRegs s t [x, 0xF#4]

/-- spec/42_load_arith_logic.md R107, R109, R113: `VF` is 1 when there is no borrow, equality included. -/
def Obligations.SubtractSetsNoBorrow : Prop :=
  ∀ (x y : RegIx) (s : State),
    decode (BitVec.ofNat 16 (0x8005 + x.toNat * 0x100 + y.toNat * 0x10)) = .instr (.sub x y) ∧
    decode (BitVec.ofNat 16 (0x8007 + x.toNat * 0x100 + y.toNat * 0x10)) = .instr (.subn x y) ∧
    (∃ t, exec (.sub x y) s = .next t ∧
      (x ≠ 0xF#4 → (t.reg x).toNat = (if (s.reg x).toNat ≥ (s.reg y).toNat then (s.reg x).toNat - (s.reg y).toNat
        else (s.reg x).toNat + 256 - (s.reg y).toNat)) ∧
      (t.reg 0xF#4).toNat = (if (s.reg x).toNat ≥ (s.reg y).toNat then 1 else 0) ∧
      Completes s t (s.pc + 2) ∧ OnlyRegs s t [x, 0xF#4]) ∧
    (∃ t, exec (.subn x y) s = .next t ∧
      (x ≠ 0xF#4 → (t.reg x).toNat = (if (s.reg y).toNat ≥ (s.reg x).toNat then (s.reg y).toNat - (s.reg x).toNat
        else (s.reg y).toNat + 256 - (s.reg x).toNat)) ∧
      (t.reg 0xF#4).toNat = (if (s.reg y).toNat ≥ (s.reg x).toNat then 1 else 0) ∧
      Completes s t (s.pc + 2) ∧ OnlyRegs s t [x, 0xF#4])

/-- spec/42_load_arith_logic.md R108, R110, R113: the operand is `Vx` for every `y`; `VF` is the bit shifted out. -/
def Obligations.ShiftsSetBitShiftedOut : Prop :=
  ∀ (x y : RegIx) (s : State),
    decode (BitVec.ofNat 16 (0x8006 + x.toNat * 0x100 + y.toNat * 0x10)) = .instr (.shr x y) ∧
    decode (BitVec.ofNat 16 (0x800E + x.toNat * 0x100 + y.toNat * 0x10)) = .instr (.shl x y) ∧
    (∃ t, exec (.shr x y) s = .next t ∧ (x ≠ 0xF#4 → (t.reg x).toNat = (s.reg x).toNat / 2) ∧
      (t.reg 0xF#4).toNat = (s.reg x).toNat % 2 ∧ Completes s t (s.pc + 2) ∧ OnlyRegs s t [x, 0xF#4]) ∧
    (∃ t, exec (.shl x y) s = .next t ∧ (x ≠ 0xF#4 → (t.reg x).toNat = (s.reg x).toNat * 2 % 256) ∧
      (t.reg 0xF#4).toNat = (s.reg x).toNat / 128 ∧ Completes s t (s.pc + 2) ∧ OnlyRegs s t [x, 0xF#4])

/-- spec/42_load_arith_logic.md R111 (decision D19). The random byte is the free value `Config.rnd s.rndIx`
(notes/assumptions/1.md): the statement holds for every value of it. -/
def Obligations.RandomByteIsMasked : Prop :=
  ∀ (x : RegIx) (kk : Byte) (s : State),
    decode (BitVec.ofNat 16 (0xC000 + x.toNat * 0x100 + kk.toNat)) = .instr (.rnd x kk) ∧
    ∃ t, exec (.rnd x kk) s = .next t ∧
      (∀ j, (t.reg x).getLsbD j = ((Config.rnd s.rndIx).getLsbD j && kk.getLsbD j)) ∧
      t.rndIx = s.rndIx + 1 ∧ Completes s t (s.pc + 2) ∧
      RegsKept s t [x] ∧ t.i = s.i ∧ StackKept s t ∧ MemKept s t ∧ ScreenKept s t ∧ t.key = s.key ∧ t.font = s.font

/-! ## Index register and memory -/

/-- spec/43_index_memory.md R120. -/
def Obligations.LoadIndexImmediate : Prop :=
  ∀ (nnn : Addr12) (s : State), decode (BitVec.ofNat 16 (0xA000 + nnn.toNat)) = .instr (.ldI nnn) ∧
    ∃ t, exec (.ldI nnn) s = .next t ∧ t.i.toNat = nnn.toNat ∧ Completes s t (s.pc + 2) ∧
      RegsKept s t [] ∧ StackKept s t ∧ MemKept s t ∧ ScreenKept s t ∧ InputsKept s t

/-- spec/43_index_memory.md R122: `Fx29` points to 0x050 + 5 * Vx, the whole byte of `Vx` counting, and so, for a digit,
to its glyph in the font table, whatever it is, that reset places (spec/10_state.md R29). The base 0x050 is the spec's
decision D10. -/
def Obligations.LoadIndexFont : Prop :=
  (∀ (x : RegIx) (s : State), decode (BitVec.ofNat 16 (0xF029 + x.toNat * 0x100)) = .instr (.ldF x) ∧
    ∃ t, exec (.ldF x) s = .next t ∧ t.i.toNat = 0x050 + 5 * (s.reg x).toNat ∧ Completes s t (s.pc + 2) ∧
      RegsKept s t [] ∧ StackKept s t ∧ MemKept s t ∧ ScreenKept s t ∧ InputsKept s t) ∧
  ∀ (font : Font), ∀ d < 16, ∀ r < 5, some ((State.resetWith font).memRead (0x050 + 5 * d + r)) = font[5 * d + r]?

/-- spec/43_index_memory.md R121: the sum is reduced mod 4096 and `VF` tells whether it exceeded 0xFFF. -/
def Obligations.AddToIndexSetsOverflow : Prop :=
  ∀ (x : RegIx) (s : State), decode (BitVec.ofNat 16 (0xF01E + x.toNat * 0x100)) = .instr (.addI x) ∧
    ∃ t, exec (.addI x) s = .next t ∧ t.i.toNat = (s.i.toNat + (s.reg x).toNat) % 4096 ∧
      (t.reg 0xF#4).toNat = (if s.i.toNat + (s.reg x).toNat > 0xFFF then 1 else 0) ∧ Completes s t (s.pc + 2) ∧
      RegsKept s t [0xF#4] ∧ StackKept s t ∧ MemKept s t ∧ ScreenKept s t ∧ InputsKept s t

/-- spec/43_index_memory.md R123: hundreds, tens and ones at `I`, `I+1`, `I+2`, each address reduced to 12 bits; every
other byte is as before. -/
def Obligations.StoreDecimalDigits : Prop :=
  ∀ (x : RegIx) (s : State), decode (BitVec.ofNat 16 (0xF033 + x.toNat * 0x100)) = .instr (.ldB x) ∧
    (s.memWf = true → ∃ t, exec (.ldB x) s = .next t ∧
      (t.memRead s.i.toNat).toNat = (s.reg x).toNat / 100 ∧
      (t.memRead (s.i.toNat + 1)).toNat = (s.reg x).toNat / 10 % 10 ∧
      (t.memRead (s.i.toNat + 2)).toNat = (s.reg x).toNat % 10 ∧
      (s.reg x).toNat = 100 * (t.memRead s.i.toNat).toNat + 10 * (t.memRead (s.i.toNat + 1)).toNat +
        (t.memRead (s.i.toNat + 2)).toNat ∧
      (∀ a, (∀ k < 3, a % 4096 ≠ (s.i.toNat + k) % 4096) → t.memRead a = s.memRead a) ∧
      Completes s t (s.pc + 2) ∧ RegsKept s t [] ∧ t.i = s.i ∧ StackKept s t ∧ ScreenKept s t ∧ InputsKept s t)

/-- spec/43_index_memory.md R125: `V0..Vx` go to `I..I+x`, each address reduced to 12 bits; every other byte, and `I`, is
as before (the quirk parameter is false, the spec's default and decision D17). -/
def Obligations.StoreRegisters : Prop :=
  ∀ (x : RegIx) (s : State), decode (BitVec.ofNat 16 (0xF055 + x.toNat * 0x100)) = .instr (.storeRegs x) ∧
    (s.memWf = true → ∃ t, exec (.storeRegs x) s = .next t ∧
      (∀ k : RegIx, k.toNat ≤ x.toNat → t.memRead (s.i.toNat + k.toNat) = s.reg k) ∧
      (∀ a, (∀ k ≤ x.toNat, a % 4096 ≠ (s.i.toNat + k) % 4096) → t.memRead a = s.memRead a) ∧
      Completes s t (s.pc + 2) ∧ RegsKept s t [] ∧ t.i = s.i ∧ StackKept s t ∧ ScreenKept s t ∧ InputsKept s t)

/-- spec/43_index_memory.md R126: `V0..Vx` are loaded from `I..I+x`, each address reduced to 12 bits; the other
registers, and `I`, are as before (the quirk parameter is false, the spec's default and decision D17). -/
def Obligations.LoadRegisters : Prop :=
  ∀ (x : RegIx) (s : State), decode (BitVec.ofNat 16 (0xF065 + x.toNat * 0x100)) = .instr (.loadRegs x) ∧
    ∃ t, exec (.loadRegs x) s = .next t ∧
      (∀ k : RegIx, t.reg k = if k.toNat ≤ x.toNat then s.memRead (s.i.toNat + k.toNat) else s.reg k) ∧
      Completes s t (s.pc + 2) ∧ t.i = s.i ∧ StackKept s t ∧ MemKept s t ∧ ScreenKept s t ∧ InputsKept s t

/-- spec/43_index_memory.md R126, spec/95_test_vectors.md S7: `Fx55` then, whatever has happened to the registers and the
program counter in between, `Fx65` with the same `x` and `I` restores `V0..Vx`. -/
def Obligations.StoreThenLoadRestores : Prop :=
  ∀ (x : RegIx) (s : State), s.memWf = true → ∃ t, exec (.storeRegs x) s = .next t ∧
    ∀ (v : Vector Byte 16) (pc : Word), ∃ u, exec (.loadRegs x) { t with v := v, pc := pc } = .next u ∧
      ∀ k : RegIx, k.toNat ≤ x.toNat → u.reg k = s.reg k

/-- spec/20_memory.md R52: bytes stored by `Fx55` are the opcode of the next step if PC points at them. That a store is
seen by the very next fetch is the spec's decision D25. -/
def Obligations.StoreIsSeenByNextFetch : Prop :=
  ∀ (x : RegIx) (s : State), s.memWf = true → 1 ≤ x.toNat → (s.pc.toNat + 2) % 4096 = s.i.toNat % 4096 →
    ∃ t, exec (.storeRegs x) s = .next t ∧ (opAt t).toNat = (s.reg 0#4).toNat * 256 + (s.reg 1#4).toNat

/-! ## Display -/

/-- spec/44_display.md R130. That `REDRAW` is set whatever the framebuffer held is the spec's decision D22. -/
def Obligations.ClearScreen : Prop :=
  decode 0x00E0#16 = .instr .cls ∧
  ∀ s : State, ∃ t, exec .cls s = .next t ∧ (∀ px py, t.pixel px py = false) ∧ t.redraw = true ∧
    Completes s t (s.pc + 2) ∧ RegsKept s t [] ∧ t.i = s.i ∧ StackKept s t ∧ MemKept s t ∧ InputsKept s t

/-- spec/44_display.md R131 to R134: exactly the pixels under a set sprite bit are inverted; `VF` tells whether one of
them was on. That bit 7 is the left pixel is the spec's decision D12, that `REDRAW` is set whatever changes its D22. -/
def Obligations.DrawInvertsCoveredPixels : Prop :=
  ∀ (x y : RegIx) (n : Nib) (s : State),
    decode (BitVec.ofNat 16 (0xD000 + x.toNat * 0x100 + y.toNat * 0x10 + n.toNat)) = .instr (.drw x y n) ∧
    ∃ t, exec (.drw x y n) s = .next t ∧
      (∀ px py, Covers s x y n px py → t.pixel px py = !s.pixel px py) ∧
      (∀ px py, ¬ Covers s x y n px py → t.pixel px py = s.pixel px py) ∧
      ((∃ px py, Covers s x y n px py ∧ s.pixel px py = true) → t.reg 0xF#4 = 1) ∧
      ((∀ px py, Covers s x y n px py → s.pixel px py = false) → t.reg 0xF#4 = 0) ∧ t.redraw = true ∧
      Completes s t (s.pc + 2) ∧ RegsKept s t [0xF#4] ∧ t.i = s.i ∧ StackKept s t ∧ MemKept s t ∧ InputsKept s t

/-- spec/44_display.md R131, spec/95_test_vectors.md S8: a second draw of the same sprite at the same place restores the
framebuffer; if the first met no pixel that was on and the sprite has a set bit, the second reports the collision. -/
def Obligations.DrawingTwiceErases : Prop :=
  ∀ (x y : RegIx) (n : Nib) (s : State), ∃ t, exec (.drw x y n) s = .next t ∧
    ∀ (v : Vector Byte 16) (pc : Word) (t' : State), t' = { t with v := v, pc := pc } →
      t'.reg x = s.reg x → t'.reg y = s.reg y → ∃ u, exec (.drw x y n) t' = .next u ∧
        (∀ px py, u.pixel px py = s.pixel px py) ∧
        ((∀ px py, Covers s x y n px py → s.pixel px py = false) → (∃ px py, Covers s x y n px py) →
          t.reg 0xF#4 = 0 ∧ u.reg 0xF#4 = 1)

/-! ## Keypad and timers -/

/-- spec/45_keypad_timers.md R140, R141, R146: the key tested is the one the low four bits of `Vx` name, the spec's
decision D14. -/
def Obligations.SkipOnKey : Prop :=
  ∀ (x : RegIx) (s : State),
    decode (BitVec.ofNat 16 (0xE09E + x.toNat * 0x100)) = .instr (.skp x) ∧
    decode (BitVec.ofNat 16 (0xE0A1 + x.toNat * 0x100)) = .instr (.sknp x) ∧
    (∃ t, exec (.skp x) s = .next t ∧ OnlyRegs s t [] ∧
      Completes s t (if s.key.getLsbD ((s.reg x).toNat % 16) = true then s.pc + 4 else s.pc + 2)) ∧
    (∃ t, exec (.sknp x) s = .next t ∧ OnlyRegs s t [] ∧
      Completes s t (if s.key.getLsbD ((s.reg x).toNat % 16) = false then s.pc + 4 else s.pc + 2))

/-- spec/45_keypad_timers.md R142: with a key pressed, `Fx0A` loads the key that `KeySelect` answers, some function of the
pressed mask that answers a pressed key (a free value, notes/assumptions/2.md); with none pressed it waits. -/
def Obligations.KeyLoadTakesPressedKey : Prop :=
  ∃ select : BitVec 16 → Nat, (∀ p, p ≠ 0 → select p < 16 ∧ p.getLsbD (select p) = true) ∧
  ∀ (x : RegIx) (s : State), decode (BitVec.ofNat 16 (0xF00A + x.toNat * 0x100)) = .instr (.ldVxK x) ∧
    (s.key ≠ 0 → ∃ t, exec (.ldVxK x) s = .next t ∧ (t.reg x).toNat = select s.key ∧ Completes s t (s.pc + 2) ∧
      OnlyRegs s t [x]) ∧
    (s.key = 0 → exec (.ldVxK x) s = .next { s with out := ⟨false, .none, 0, true⟩ })

/-- spec/45_keypad_timers.md R143: the value read is the one before this step's tick, which the spec derives from R87. -/
def Obligations.ReadDelayTimer : Prop :=
  ∀ (x : RegIx) (s : State), decode (BitVec.ofNat 16 (0xF007 + x.toNat * 0x100)) = .instr (.ldVxDt x) ∧
    ∃ t, exec (.ldVxDt x) s = .next t ∧ t.reg x = s.dt ∧ Completes s t (s.pc + 2) ∧ OnlyRegs s t [x]

/-- spec/45_keypad_timers.md R144, R145: this step's tick already counts the written value down, with the sound edge if
it was 1; the spec derives it from R87 and R85 and decides it in D21. -/
def Obligations.SetTimers : Prop :=
  ∀ (x : RegIx) (s : State),
    decode (BitVec.ofNat 16 (0xF015 + x.toNat * 0x100)) = .instr (.ldDtVx x) ∧
    decode (BitVec.ofNat 16 (0xF018 + x.toNat * 0x100)) = .instr (.ldStVx x) ∧
    (∃ t, exec (.ldDtVx x) s = .next t ∧ Ends t (s.pc + 2) (s.reg x) s.st .none 0 ∧ OnlyRegs s t []) ∧
    (∃ t, exec (.ldStVx x) s = .next t ∧ Ends t (s.pc + 2) s.dt (s.reg x) .none 0 ∧ OnlyRegs s t [])

/-! ## Reset and host operations -/

/-- spec/10_state.md R28: the state after reset, whatever the value of the parameter `FONT_TABLE` (spec/00_scope.md R6,
notes/assumptions/3.md); `State.reset` is the one for its default. -/
def Obligations.ResetState : Prop :=
  State.reset = State.resetWith fontTable ∧ ∀ (font : Font) (s : State), s = State.resetWith font →
    (∀ r, s.reg r = 0) ∧ s.i = 0x0000#16 ∧ s.pc = 0x0200#16 ∧ s.sp.val = 0 ∧ (∀ k, s.entry k = 0) ∧ s.dt = 0 ∧ s.st = 0 ∧
    (∀ j < 80, some (s.memRead (0x050 + j)) = font[j]?) ∧ (∀ a < 0x050, s.memRead a = 0) ∧
    (∀ a, 0x0A0 ≤ a → a ≤ 0xFFF → s.memRead a = 0) ∧ (∀ px py, s.pixel px py = false) ∧ s.redraw = false ∧
    (∀ k, s.keyPressed k = false) ∧ s.out = ⟨false, .none, 0, false⟩

/-- spec/70_reset_and_hazards.md R170, R172: `reset()` gives the reset state from any state, and twice is once. (The count
of random bytes drawn, the model's own field, goes on, notes/assumptions/1.md; the parameter `FONT_TABLE` is kept,
notes/assumptions/3.md.) -/
def Obligations.HostResetRestoresResetState : Prop :=
  ∀ s : State, s.hostReset = { State.resetWith s.font with rndIx := s.rndIx } ∧ s.hostReset.hostReset = s.hostReset

/-- spec/70_reset_and_hazards.md R173, R174: a ROM of at most 3584 bytes is copied to 0x200 and nothing else changes; a
longer one is refused. That a load does not reset first is the spec's decision D24; that it is defined in every state,
not only after a reset, is the model's choice (notes/assumptions/18.md). -/
def Obligations.LoadProgramCopiesOrFails : Prop :=
  ∀ (s : State) (rom : List Byte), s.memWf = true →
    (rom.length ≤ 3584 → ∃ t, s.loadProgram rom = .ok t ∧ t = { s with mem := t.mem } ∧
      (∀ j < rom.length, some (t.memRead (0x200 + j)) = rom[j]?) ∧
      (∀ a < 4096, (a < 0x200 ∨ 0x200 + rom.length ≤ a) → t.memRead a = s.memRead a)) ∧
    (rom.length > 3584 → s.loadProgram rom = .error .tooLarge ∧ s.hostOp (.loadProgram rom) = s)

/-- spec/70_reset_and_hazards.md R176: the launch state of a program, which the spec derives from R170 and R173. -/
def Obligations.LaunchState : Prop :=
  ∀ (font : Font) (rom : List Byte),
    (rom.length ≤ 3584 → ∃ s, launch font rom = some s ∧ s = { State.resetWith font with mem := s.mem } ∧
      (∀ j < rom.length, some (s.memRead (0x200 + j)) = rom[j]?) ∧
      (∀ a < 4096, (a < 0x200 ∨ 0x200 + rom.length ≤ a) → s.memRead a = (State.resetWith font).memRead a)) ∧
    (rom.length > 3584 → launch font rom = none)

/-- spec/40_step_cycle.md R88: `key_write` and `redraw_clear` change only the one named piece of state. -/
def Obligations.KeyWriteAndRedrawClear : Prop :=
  ∀ s : State,
    (∀ (k : Nib) (down : Bool), s.keyWrite k down = { s with key := (s.keyWrite k down).key } ∧
      ∀ j < 16, (s.keyWrite k down).keyPressed j = if j = k.toNat then down else s.keyPressed j) ∧
    s.redrawClear = { s with redraw := false }

/-- spec/40_step_cycle.md R89: at a jump to itself each further step changes only the timers and the outputs, and the
program stays there. -/
def Obligations.JumpToSelfIsStable : Prop :=
  ∀ s : State, Spinning s → ∃ t, step s = .next t ∧ Spinning t ∧ Completes s t s.pc ∧ OnlyRegs s t []
end

