-- ==== Sys2Proof/Laws/Decode.lean ====
section
/-! SUPPORT. The fields of a packed word, and a word as the pack of its fields (spec/30_encoding.md R61, R62). -/

namespace Sys2Proof

theorem fieldT_toNat (op : Word) : (fieldT op).toNat = op.toNat / 4096 := by
  have := op.isLt
  simp only [fieldT, BitVec.extractLsb'_toNat, Nat.shiftRight_eq_div_pow]
  omega

theorem fieldX_toNat (op : Word) : (fieldX op).toNat = op.toNat / 256 % 16 := by
  simp only [fieldX, BitVec.extractLsb'_toNat, Nat.shiftRight_eq_div_pow]

theorem fieldY_toNat (op : Word) : (fieldY op).toNat = op.toNat / 16 % 16 := by
  simp only [fieldY, BitVec.extractLsb'_toNat, Nat.shiftRight_eq_div_pow]

theorem fieldN_toNat (op : Word) : (fieldN op).toNat = op.toNat % 16 := by
  simp only [fieldN, BitVec.extractLsb'_toNat, Nat.shiftRight_eq_div_pow]
  omega

theorem fieldKK_toNat (op : Word) : (fieldKK op).toNat = op.toNat % 256 := by
  simp only [fieldKK, BitVec.extractLsb'_toNat, Nat.shiftRight_eq_div_pow]
  omega

theorem fieldNNN_toNat (op : Word) : (fieldNNN op).toNat = op.toNat % 4096 := by
  simp only [fieldNNN, BitVec.extractLsb'_toNat, Nat.shiftRight_eq_div_pow]
  omega

theorem packXKK_toNat (t : Nib) (x : RegIx) (kk : Byte) :
    (packXKK t x kk).toNat = t.toNat * 4096 + x.toNat * 256 + kk.toNat := by
  have := t.isLt; have := x.isLt; have := kk.isLt
  simp only [packXKK, BitVec.toNat_ofNat]
  omega

theorem packNNN_toNat (t : Nib) (nnn : Addr12) : (packNNN t nnn).toNat = t.toNat * 4096 + nnn.toNat := by
  have := t.isLt; have := nnn.isLt
  simp only [packNNN, BitVec.toNat_ofNat]
  omega

theorem packXYN_toNat (t : Nib) (x y : RegIx) (n : Nib) :
    (packXYN t x y n).toNat = t.toNat * 4096 + x.toNat * 256 + y.toNat * 16 + n.toNat := by
  have := t.isLt; have := x.isLt; have := y.isLt; have := n.isLt
  simp only [packXYN, BitVec.toNat_ofNat]
  omega

theorem opcodeOfBytes_toNat (hi lo : Byte) : (opcodeOfBytes hi lo).toNat = hi.toNat * 256 + lo.toNat := by
  have := hi.isLt; have := lo.isLt
  simp only [opcodeOfBytes, BitVec.toNat_ofNat]
  omega

section
variable (t : Nib) (x y : RegIx) (n : Nib) (kk : Byte) (nnn : Addr12)

@[simp] theorem fieldT_packXKK : fieldT (packXKK t x kk) = t := by
  have := t.isLt; have := x.isLt; have := kk.isLt
  apply BitVec.eq_of_toNat_eq
  rw [fieldT_toNat, packXKK_toNat]
  omega

@[simp] theorem fieldX_packXKK : fieldX (packXKK t x kk) = x := by
  have := t.isLt; have := x.isLt; have := kk.isLt
  apply BitVec.eq_of_toNat_eq
  rw [fieldX_toNat, packXKK_toNat]
  omega

@[simp] theorem fieldKK_packXKK : fieldKK (packXKK t x kk) = kk := by
  have := kk.isLt
  apply BitVec.eq_of_toNat_eq
  rw [fieldKK_toNat, packXKK_toNat]
  omega

@[simp] theorem fieldT_packNNN : fieldT (packNNN t nnn) = t := by
  have := t.isLt; have := nnn.isLt
  apply BitVec.eq_of_toNat_eq
  rw [fieldT_toNat, packNNN_toNat]
  omega

@[simp] theorem fieldNNN_packNNN : fieldNNN (packNNN t nnn) = nnn := by
  have := nnn.isLt
  apply BitVec.eq_of_toNat_eq
  rw [fieldNNN_toNat, packNNN_toNat]
  omega

@[simp] theorem fieldT_packXYN : fieldT (packXYN t x y n) = t := by
  have := t.isLt; have := x.isLt; have := y.isLt; have := n.isLt
  apply BitVec.eq_of_toNat_eq
  rw [fieldT_toNat, packXYN_toNat]
  omega

@[simp] theorem fieldX_packXYN : fieldX (packXYN t x y n) = x := by
  have := x.isLt; have := y.isLt; have := n.isLt
  apply BitVec.eq_of_toNat_eq
  rw [fieldX_toNat, packXYN_toNat]
  omega

@[simp] theorem fieldY_packXYN : fieldY (packXYN t x y n) = y := by
  have := y.isLt; have := n.isLt
  apply BitVec.eq_of_toNat_eq
  rw [fieldY_toNat, packXYN_toNat]
  omega

@[simp] theorem fieldN_packXYN : fieldN (packXYN t x y n) = n := by
  have := n.isLt
  apply BitVec.eq_of_toNat_eq
  rw [fieldN_toNat, packXYN_toNat]
  omega

end

/-- The fields of format `XKK` make up the whole word. -/
theorem packXKK_fields (op : Word) : packXKK (fieldT op) (fieldX op) (fieldKK op) = op := by
  have := op.isLt
  apply BitVec.eq_of_toNat_eq
  rw [packXKK_toNat, fieldT_toNat, fieldX_toNat, fieldKK_toNat]
  omega

/-- The fields of format `NNN` make up the whole word. -/
theorem packNNN_fields (op : Word) : packNNN (fieldT op) (fieldNNN op) = op := by
  have := op.isLt
  apply BitVec.eq_of_toNat_eq
  rw [packNNN_toNat, fieldT_toNat, fieldNNN_toNat]
  omega

/-- The fields of formats `XYS` and `XYN` make up the whole word. -/
theorem packXYN_fields (op : Word) : packXYN (fieldT op) (fieldX op) (fieldY op) (fieldN op) = op := by
  have := op.isLt
  apply BitVec.eq_of_toNat_eq
  rw [packXYN_toNat, fieldT_toNat, fieldX_toNat, fieldY_toNat, fieldN_toNat]
  omega

/-- The two bytes of a word, high byte first, make up the word. -/
theorem opcodeOfBytes_bytes (op : Word) : opcodeOfBytes (op.extractLsb' 8 8) (op.extractLsb' 0 8) = op := by
  have := op.isLt
  apply BitVec.eq_of_toNat_eq
  rw [opcodeOfBytes_toNat]
  simp only [BitVec.extractLsb'_toNat, Nat.shiftRight_eq_div_pow]
  omega

/-! The three masks of the opcode map (R65). -/

theorem and_F000_toNat (op : Word) : (op &&& 0xF000#16).toNat = op.toNat / 4096 * 4096 := by
  have h : op &&& 0xF000#16 = (op >>> 12) <<< 12 := by
    ext i hi
    simp only [BitVec.getElem_and, BitVec.getElem_shiftLeft]
    interval_cases i <;> simp
  have := op.isLt
  rw [h]
  simp [BitVec.toNat_shiftLeft, Nat.shiftLeft_eq, Nat.shiftRight_eq_div_pow]
  omega

theorem and_000F_toNat (op : Word) : (op &&& 0x000F#16).toNat = op.toNat % 16 := by
  rw [BitVec.toNat_and]
  exact Nat.and_two_pow_sub_one_eq_mod op.toNat 4

theorem and_00FF_toNat (op : Word) : (op &&& 0x00FF#16).toNat = op.toNat % 256 := by
  rw [BitVec.toNat_and]
  exact Nat.and_two_pow_sub_one_eq_mod op.toNat 8

theorem and_F00F_toNat (op : Word) : (op &&& 0xF00F#16).toNat = op.toNat / 4096 * 4096 + op.toNat % 16 := by
  have h : op &&& 0xF00F#16 = (op &&& 0xF000#16) + (op &&& 0x000F#16) := by
    rw [BitVec.add_eq_or_of_and_eq_zero]
    · rw [← BitVec.and_or_distrib_left]
      rfl
    · rw [BitVec.and_assoc, BitVec.and_comm op 0x000F#16, ← BitVec.and_assoc 0xF000#16]
      simp
  have := op.isLt
  rw [h, BitVec.toNat_add, and_F000_toNat, and_000F_toNat]
  omega

theorem and_F0FF_toNat (op : Word) : (op &&& 0xF0FF#16).toNat = op.toNat / 4096 * 4096 + op.toNat % 256 := by
  have h : op &&& 0xF0FF#16 = (op &&& 0xF000#16) + (op &&& 0x00FF#16) := by
    rw [BitVec.add_eq_or_of_and_eq_zero]
    · rw [← BitVec.and_or_distrib_left]
      rfl
    · rw [BitVec.and_assoc, BitVec.and_comm op 0x00FF#16, ← BitVec.and_assoc 0xF000#16]
      simp
  have := op.isLt
  rw [h, BitVec.toNat_add, and_F000_toNat, and_00FF_toNat]
  omega

/-! A row of the opcode map, as a condition on the fields. -/

theorem mask_F000_iff (op : Word) (t : Nib) : op &&& 0xF000#16 = packNNN t 0 ↔ fieldT op = t := by
  have := op.isLt
  rw [← BitVec.toNat_inj, ← BitVec.toNat_inj, and_F000_toNat, packNNN_toNat, fieldT_toNat]
  have h12 : (0 : BitVec 12).toNat = 0 := rfl
  omega

theorem mask_F00F_iff (op : Word) (t n : Nib) :
    op &&& 0xF00F#16 = packXYN t 0 0 n ↔ fieldT op = t ∧ fieldN op = n := by
  have := op.isLt; have := n.isLt
  rw [← BitVec.toNat_inj, ← BitVec.toNat_inj, ← BitVec.toNat_inj, and_F00F_toNat, packXYN_toNat, fieldT_toNat,
    fieldN_toNat]
  have h4 : (0 : BitVec 4).toNat = 0 := rfl
  omega

theorem mask_F0FF_iff (op : Word) (t : Nib) (kk : Byte) :
    op &&& 0xF0FF#16 = packXKK t 0 kk ↔ fieldT op = t ∧ fieldKK op = kk := by
  have := op.isLt; have := kk.isLt
  rw [← BitVec.toNat_inj, ← BitVec.toNat_inj, ← BitVec.toNat_inj, and_F0FF_toNat, packXKK_toNat, fieldT_toNat,
    fieldKK_toNat]
  have h4 : (0 : BitVec 4).toNat = 0 := rfl
  omega

end Sys2Proof
end

