-- ==== Sys2Proof/Laws/Memory.lean ====
section
/-! SUPPORT. The laws of memory: a read after a write, the canonical form, and that it determines the memory. -/

namespace Sys2Proof.Machine
namespace Memory

variable {font : Font}

theorem read_put_self (m : Memory) (a : Nat) (b : Byte) (h : read font m a = resetByte font a) :
    read font (put font a b m) a = b := by
  unfold put
  split
  · simp_all
  · simp [read]

theorem read_put_other (m : Memory) {a a' : Nat} (b : Byte) (h : a ≠ a') :
    read font (put font a b m) a' = read font m a' := by
  unfold put
  split
  · rfl
  · simp [read, h]

/-- A write leaves every other byte as it was, in every memory. -/
theorem read_write_other (m : Memory) {a a' : Nat} (b : Byte) (h : a ≠ a') :
    read font (write font m a b) a' = read font m a' := by
  induction m with
  | nil => exact read_put_other [] b h
  | cons c m ih =>
    obtain ⟨k, d⟩ := c
    unfold write
    split
    · simp [read, ih]
    · split
      · next hk =>
        subst hk
        rw [read_put_other m b h]
        simp [read, h]
      · exact read_put_other _ b h

theorem wfFrom_cons {lo k : Nat} {b : Byte} {m : Memory} :
    wfFrom font lo ((k, b) :: m) = true ↔ lo ≤ k ∧ k < memSize ∧ b ≠ resetByte font k ∧ wfFrom font (k + 1) m = true := by
  simp [wfFrom, and_assoc]

/-- Below its first address a canonical memory reads as reset left it. -/
theorem read_below {m : Memory} {lo a : Nat} (h : wfFrom font lo m = true) (ha : a < lo) :
    read font m a = resetByte font a := by
  induction m generalizing lo with
  | nil => rfl
  | cons c m ih =>
    obtain ⟨k, d⟩ := c
    obtain ⟨h1, -, -, h4⟩ := wfFrom_cons.mp h
    have hk : k ≠ a := by omega
    rw [read, if_neg hk]
    exact ih h4 (by omega)

theorem wfFrom_mono {m : Memory} {lo lo' : Nat} (h : wfFrom font lo m = true) (hl : lo' ≤ lo) :
    wfFrom font lo' m = true := by
  cases m with
  | nil => rfl
  | cons c m =>
    obtain ⟨k, d⟩ := c
    obtain ⟨h1, h2, h3, h4⟩ := wfFrom_cons.mp h
    exact wfFrom_cons.mpr ⟨by omega, h2, h3, h4⟩

theorem wfFrom_put {m : Memory} {a : Nat} (b : Byte) (ha : a < memSize) (h : wfFrom font (a + 1) m = true) :
    wfFrom font a (put font a b m) = true := by
  unfold put
  split
  · exact wfFrom_mono h (by omega)
  · next hb => exact wfFrom_cons.mpr ⟨le_refl a, ha, hb, h⟩

theorem wfFrom_write {m : Memory} {lo a : Nat} (b : Byte) (h : wfFrom font lo m = true) (hl : lo ≤ a)
    (ha : a < memSize) :
    wfFrom font lo (write font m a b) = true := by
  induction m generalizing lo with
  | nil => exact wfFrom_mono (wfFrom_put b ha rfl) hl
  | cons c m ih =>
    obtain ⟨k, d⟩ := c
    obtain ⟨h1, h2, h3, h4⟩ := wfFrom_cons.mp h
    unfold write
    split
    · next hk => exact wfFrom_cons.mpr ⟨h1, h2, h3, ih h4 hk⟩
    · split
      · next hk =>
        subst hk
        exact wfFrom_mono (wfFrom_put b ha h4) hl
      · exact wfFrom_mono (wfFrom_put b ha (wfFrom_cons.mpr ⟨by omega, h2, h3, h4⟩)) hl

/-- Every write inside the memory keeps the canonical form. -/
theorem wf_write {m : Memory} {a : Nat} (b : Byte) (h : wf font m = true) (ha : a < memSize) :
    wf font (write font m a b) = true :=
  wfFrom_write b h (Nat.zero_le a) ha

theorem read_write_self_from {m : Memory} {lo a : Nat} (b : Byte) (h : wfFrom font lo m = true) :
    read font (write font m a b) a = b := by
  induction m generalizing lo with
  | nil => exact read_put_self [] a b rfl
  | cons c m ih =>
    obtain ⟨k, d⟩ := c
    obtain ⟨-, -, -, h4⟩ := wfFrom_cons.mp h
    unfold write
    split
    · next hk =>
      rw [read, if_neg (by omega)]
      exact ih h4
    · split
      · next hk =>
        subst hk
        exact read_put_self m k b (read_below h4 (Nat.lt_succ_self k))
      · next h5 h6 =>
        refine read_put_self _ a b ?_
        rw [read, if_neg h6]
        exact read_below h4 (by omega)

/-- A read after a write to the same address gives the byte written. -/
theorem read_write_self {m : Memory} (a : Nat) (b : Byte) (h : wf font m = true) :
    read font (write font m a b) a = b :=
  read_write_self_from b h

theorem ext_from {m m' : Memory} {lo : Nat} (h : wfFrom font lo m = true) (h' : wfFrom font lo m' = true)
    (hr : ∀ a, read font m a = read font m' a) : m = m' := by
  induction m generalizing m' lo with
  | nil =>
    cases m' with
    | nil => rfl
    | cons c m' =>
      obtain ⟨k, d⟩ := c
      obtain ⟨-, -, h3, -⟩ := wfFrom_cons.mp h'
      have := hr k
      simp [read] at this
      exact absurd this.symm h3
  | cons c m ih =>
    obtain ⟨k, d⟩ := c
    obtain ⟨h1, h2, h3, h4⟩ := wfFrom_cons.mp h
    cases m' with
    | nil =>
      have := hr k
      simp [read] at this
      exact absurd this h3
    | cons c' m' =>
      obtain ⟨k', d'⟩ := c'
      obtain ⟨h1', h2', h3', h4'⟩ := wfFrom_cons.mp h'
      have hk : k = k' := by
        rcases Nat.lt_trichotomy k k' with hlt | heq | hgt
        · have := hr k
          rw [read, if_pos rfl, read, if_neg (by omega), read_below h4' (by omega)] at this
          exact absurd this h3
        · exact heq
        · have := hr k'
          rw [read, if_neg (by omega), read_below h4 (by omega), read, if_pos rfl] at this
          exact absurd this.symm h3'
      subst hk
      have hd : d = d' := by simpa [read] using hr k
      subst hd
      congr 1
      refine ih h4 h4' fun a => ?_
      by_cases ha : k = a
      · subst ha
        rw [read_below h4 (Nat.lt_succ_self k), read_below h4' (Nat.lt_succ_self k)]
      · simpa [read, ha] using hr a

/-- Two canonical memories that read alike are the same list. -/
theorem ext_of_wf {m m' : Memory} (h : wf font m = true) (h' : wf font m' = true)
    (hr : ∀ a, read font m a = read font m' a) : m = m' :=
  ext_from h h' hr

end Memory

/-- Storing a byte keeps the canonical form. -/
theorem State.wf_memWrite {s : State} (h : s.memWf = true) (a : Nat) (b : Byte) :
    (s.memWrite a b).memWf = true :=
  Memory.wf_write b h (Nat.mod_lt a (by decide))

/-- What memory holds after a store: the byte at the stored address, every other byte as before. -/
theorem State.memRead_memWrite {s : State} (h : s.memWf = true) (a a' : Nat) (b : Byte) :
    (s.memWrite a b).memRead a' = if a % 4096 = a' % 4096 then b else s.memRead a' := by
  unfold State.memRead State.memWrite
  split
  · next he =>
    show Memory.read s.font (Memory.write s.font s.mem (a % memSize) b) (a' % memSize) = b
    have he' : a % memSize = a' % memSize := he
    rw [he']
    exact Memory.read_write_self _ _ h
  · next he => exact Memory.read_write_other _ b he

/-- A store leaves every other address as it was, in every state. -/
theorem State.memRead_memWrite_other (s : State) {a a' : Nat} (b : Byte) (h : a % 4096 ≠ a' % 4096) :
    (s.memWrite a b).memRead a' = s.memRead a' :=
  Memory.read_write_other _ b h

end Sys2Proof.Machine
end

