-- ==== Sys2Proof/Laws/State.lean ====
section
/-! SUPPORT. One lemma per field per update of the state, each true by `rfl`, so that no proof unfolds a record update. -/

namespace Sys2Proof.Machine
namespace State

variable (s : State)

/-! `setReg` -/

@[simp] theorem setReg_v (x : RegIx) (b : Byte) : (s.setReg x b).v = s.v.set x.toNat b x.isLt := rfl
@[simp] theorem setReg_i (x : RegIx) (b : Byte) : (s.setReg x b).i = s.i := rfl
@[simp] theorem setReg_pc (x : RegIx) (b : Byte) : (s.setReg x b).pc = s.pc := rfl
@[simp] theorem setReg_sp (x : RegIx) (b : Byte) : (s.setReg x b).sp = s.sp := rfl
@[simp] theorem setReg_stack (x : RegIx) (b : Byte) : (s.setReg x b).stack = s.stack := rfl
@[simp] theorem setReg_dt (x : RegIx) (b : Byte) : (s.setReg x b).dt = s.dt := rfl
@[simp] theorem setReg_st (x : RegIx) (b : Byte) : (s.setReg x b).st = s.st := rfl
@[simp] theorem setReg_mem (x : RegIx) (b : Byte) : (s.setReg x b).mem = s.mem := rfl
@[simp] theorem setReg_fb (x : RegIx) (b : Byte) : (s.setReg x b).fb = s.fb := rfl
@[simp] theorem setReg_redraw (x : RegIx) (b : Byte) : (s.setReg x b).redraw = s.redraw := rfl
@[simp] theorem setReg_key (x : RegIx) (b : Byte) : (s.setReg x b).key = s.key := rfl
@[simp] theorem setReg_out (x : RegIx) (b : Byte) : (s.setReg x b).out = s.out := rfl
@[simp] theorem setReg_diagSeen (x : RegIx) (b : Byte) : (s.setReg x b).diagSeen = s.diagSeen := rfl
@[simp] theorem setReg_rndIx (x : RegIx) (b : Byte) : (s.setReg x b).rndIx = s.rndIx := rfl
@[simp] theorem setReg_font (x : RegIx) (b : Byte) : (s.setReg x b).font = s.font := rfl
@[simp] theorem setReg_memRead (x : RegIx) (b : Byte) (a : Nat) : (s.setReg x b).memRead a = s.memRead a := rfl
@[simp] theorem setReg_pixel (x : RegIx) (b : Byte) (px : Fin 64) (py : Fin 32) : (s.setReg x b).pixel px py = s.pixel px py := rfl
@[simp] theorem setReg_keyPressed (x : RegIx) (b : Byte) (k : Nat) : (s.setReg x b).keyPressed k = s.keyPressed k := rfl
@[simp] theorem setReg_indexed (x : RegIx) (b : Byte) (k : Nat) : (s.setReg x b).indexed k = s.indexed k := rfl

/-! `setRegFlag` -/

@[simp] theorem setRegFlag_i (x : RegIx) (b f : Byte) : (s.setRegFlag x b f).i = s.i := rfl
@[simp] theorem setRegFlag_pc (x : RegIx) (b f : Byte) : (s.setRegFlag x b f).pc = s.pc := rfl
@[simp] theorem setRegFlag_sp (x : RegIx) (b f : Byte) : (s.setRegFlag x b f).sp = s.sp := rfl
@[simp] theorem setRegFlag_stack (x : RegIx) (b f : Byte) : (s.setRegFlag x b f).stack = s.stack := rfl
@[simp] theorem setRegFlag_dt (x : RegIx) (b f : Byte) : (s.setRegFlag x b f).dt = s.dt := rfl
@[simp] theorem setRegFlag_st (x : RegIx) (b f : Byte) : (s.setRegFlag x b f).st = s.st := rfl
@[simp] theorem setRegFlag_mem (x : RegIx) (b f : Byte) : (s.setRegFlag x b f).mem = s.mem := rfl
@[simp] theorem setRegFlag_fb (x : RegIx) (b f : Byte) : (s.setRegFlag x b f).fb = s.fb := rfl
@[simp] theorem setRegFlag_redraw (x : RegIx) (b f : Byte) : (s.setRegFlag x b f).redraw = s.redraw := rfl
@[simp] theorem setRegFlag_key (x : RegIx) (b f : Byte) : (s.setRegFlag x b f).key = s.key := rfl
@[simp] theorem setRegFlag_out (x : RegIx) (b f : Byte) : (s.setRegFlag x b f).out = s.out := rfl
@[simp] theorem setRegFlag_diagSeen (x : RegIx) (b f : Byte) : (s.setRegFlag x b f).diagSeen = s.diagSeen := rfl
@[simp] theorem setRegFlag_rndIx (x : RegIx) (b f : Byte) : (s.setRegFlag x b f).rndIx = s.rndIx := rfl
@[simp] theorem setRegFlag_font (x : RegIx) (b f : Byte) : (s.setRegFlag x b f).font = s.font := rfl
@[simp] theorem setRegFlag_memRead (x : RegIx) (b f : Byte) (a : Nat) : (s.setRegFlag x b f).memRead a = s.memRead a := rfl
@[simp] theorem setRegFlag_pixel (x : RegIx) (b f : Byte) (px : Fin 64) (py : Fin 32) : (s.setRegFlag x b f).pixel px py = s.pixel px py := rfl
@[simp] theorem setRegFlag_keyPressed (x : RegIx) (b f : Byte) (k : Nat) : (s.setRegFlag x b f).keyPressed k = s.keyPressed k := rfl
@[simp] theorem setRegFlag_indexed (x : RegIx) (b f : Byte) (k : Nat) : (s.setRegFlag x b f).indexed k = s.indexed k := rfl

/-! `setI` -/

@[simp] theorem setI_v (w : Word) : (s.setI w).v = s.v := rfl
@[simp] theorem setI_i (w : Word) : (s.setI w).i = w := rfl
@[simp] theorem setI_pc (w : Word) : (s.setI w).pc = s.pc := rfl
@[simp] theorem setI_sp (w : Word) : (s.setI w).sp = s.sp := rfl
@[simp] theorem setI_stack (w : Word) : (s.setI w).stack = s.stack := rfl
@[simp] theorem setI_dt (w : Word) : (s.setI w).dt = s.dt := rfl
@[simp] theorem setI_st (w : Word) : (s.setI w).st = s.st := rfl
@[simp] theorem setI_mem (w : Word) : (s.setI w).mem = s.mem := rfl
@[simp] theorem setI_fb (w : Word) : (s.setI w).fb = s.fb := rfl
@[simp] theorem setI_redraw (w : Word) : (s.setI w).redraw = s.redraw := rfl
@[simp] theorem setI_key (w : Word) : (s.setI w).key = s.key := rfl
@[simp] theorem setI_out (w : Word) : (s.setI w).out = s.out := rfl
@[simp] theorem setI_diagSeen (w : Word) : (s.setI w).diagSeen = s.diagSeen := rfl
@[simp] theorem setI_rndIx (w : Word) : (s.setI w).rndIx = s.rndIx := rfl
@[simp] theorem setI_font (w : Word) : (s.setI w).font = s.font := rfl
@[simp] theorem setI_reg (w : Word) (r : RegIx) : (s.setI w).reg r = s.reg r := rfl
@[simp] theorem setI_memRead (w : Word) (a : Nat) : (s.setI w).memRead a = s.memRead a := rfl
@[simp] theorem setI_pixel (w : Word) (px : Fin 64) (py : Fin 32) : (s.setI w).pixel px py = s.pixel px py := rfl
@[simp] theorem setI_keyPressed (w : Word) (k : Nat) : (s.setI w).keyPressed k = s.keyPressed k := rfl

/-! `memWrite` -/

@[simp] theorem memWrite_v (a : Nat) (b : Byte) : (s.memWrite a b).v = s.v := rfl
@[simp] theorem memWrite_i (a : Nat) (b : Byte) : (s.memWrite a b).i = s.i := rfl
@[simp] theorem memWrite_pc (a : Nat) (b : Byte) : (s.memWrite a b).pc = s.pc := rfl
@[simp] theorem memWrite_sp (a : Nat) (b : Byte) : (s.memWrite a b).sp = s.sp := rfl
@[simp] theorem memWrite_stack (a : Nat) (b : Byte) : (s.memWrite a b).stack = s.stack := rfl
@[simp] theorem memWrite_dt (a : Nat) (b : Byte) : (s.memWrite a b).dt = s.dt := rfl
@[simp] theorem memWrite_st (a : Nat) (b : Byte) : (s.memWrite a b).st = s.st := rfl
@[simp] theorem memWrite_mem (a : Nat) (b : Byte) : (s.memWrite a b).mem = Memory.write s.font s.mem (a % memSize) b := rfl
@[simp] theorem memWrite_fb (a : Nat) (b : Byte) : (s.memWrite a b).fb = s.fb := rfl
@[simp] theorem memWrite_redraw (a : Nat) (b : Byte) : (s.memWrite a b).redraw = s.redraw := rfl
@[simp] theorem memWrite_key (a : Nat) (b : Byte) : (s.memWrite a b).key = s.key := rfl
@[simp] theorem memWrite_out (a : Nat) (b : Byte) : (s.memWrite a b).out = s.out := rfl
@[simp] theorem memWrite_diagSeen (a : Nat) (b : Byte) : (s.memWrite a b).diagSeen = s.diagSeen := rfl
@[simp] theorem memWrite_rndIx (a : Nat) (b : Byte) : (s.memWrite a b).rndIx = s.rndIx := rfl
@[simp] theorem memWrite_font (a : Nat) (b : Byte) : (s.memWrite a b).font = s.font := rfl
@[simp] theorem memWrite_reg (a : Nat) (b : Byte) (r : RegIx) : (s.memWrite a b).reg r = s.reg r := rfl
@[simp] theorem memWrite_pixel (a : Nat) (b : Byte) (px : Fin 64) (py : Fin 32) : (s.memWrite a b).pixel px py = s.pixel px py := rfl
@[simp] theorem memWrite_keyPressed (a : Nat) (b : Byte) (k : Nat) : (s.memWrite a b).keyPressed k = s.keyPressed k := rfl
@[simp] theorem memWrite_indexed (a : Nat) (b : Byte) (k : Nat) : (s.memWrite a b).indexed k = s.indexed k := rfl

/-! `rndUsed` -/

@[simp] theorem rndUsed_v : (s.rndUsed).v = s.v := rfl
@[simp] theorem rndUsed_i : (s.rndUsed).i = s.i := rfl
@[simp] theorem rndUsed_pc : (s.rndUsed).pc = s.pc := rfl
@[simp] theorem rndUsed_sp : (s.rndUsed).sp = s.sp := rfl
@[simp] theorem rndUsed_stack : (s.rndUsed).stack = s.stack := rfl
@[simp] theorem rndUsed_dt : (s.rndUsed).dt = s.dt := rfl
@[simp] theorem rndUsed_st : (s.rndUsed).st = s.st := rfl
@[simp] theorem rndUsed_mem : (s.rndUsed).mem = s.mem := rfl
@[simp] theorem rndUsed_fb : (s.rndUsed).fb = s.fb := rfl
@[simp] theorem rndUsed_redraw : (s.rndUsed).redraw = s.redraw := rfl
@[simp] theorem rndUsed_key : (s.rndUsed).key = s.key := rfl
@[simp] theorem rndUsed_out : (s.rndUsed).out = s.out := rfl
@[simp] theorem rndUsed_diagSeen : (s.rndUsed).diagSeen = s.diagSeen := rfl
@[simp] theorem rndUsed_rndIx : (s.rndUsed).rndIx = s.rndIx + 1 := rfl
@[simp] theorem rndUsed_font : (s.rndUsed).font = s.font := rfl
@[simp] theorem rndUsed_reg (r : RegIx) : (s.rndUsed).reg r = s.reg r := rfl
@[simp] theorem rndUsed_memRead (a : Nat) : (s.rndUsed).memRead a = s.memRead a := rfl
@[simp] theorem rndUsed_pixel (px : Fin 64) (py : Fin 32) : (s.rndUsed).pixel px py = s.pixel px py := rfl
@[simp] theorem rndUsed_keyPressed (k : Nat) : (s.rndUsed).keyPressed k = s.keyPressed k := rfl
@[simp] theorem rndUsed_indexed (k : Nat) : (s.rndUsed).indexed k = s.indexed k := rfl

/-! `endStep` -/

@[simp] theorem endStep_v (w : Word) (d : Diag) (info : Word) : (s.endStep w d info).v = s.v := rfl
@[simp] theorem endStep_i (w : Word) (d : Diag) (info : Word) : (s.endStep w d info).i = s.i := rfl
@[simp] theorem endStep_pc (w : Word) (d : Diag) (info : Word) : (s.endStep w d info).pc = w := rfl
@[simp] theorem endStep_sp (w : Word) (d : Diag) (info : Word) : (s.endStep w d info).sp = s.sp := rfl
@[simp] theorem endStep_stack (w : Word) (d : Diag) (info : Word) : (s.endStep w d info).stack = s.stack := rfl
@[simp] theorem endStep_dt (w : Word) (d : Diag) (info : Word) : (s.endStep w d info).dt = tickTimer s.dt := rfl
@[simp] theorem endStep_st (w : Word) (d : Diag) (info : Word) : (s.endStep w d info).st = tickTimer s.st := rfl
@[simp] theorem endStep_mem (w : Word) (d : Diag) (info : Word) : (s.endStep w d info).mem = s.mem := rfl
@[simp] theorem endStep_fb (w : Word) (d : Diag) (info : Word) : (s.endStep w d info).fb = s.fb := rfl
@[simp] theorem endStep_redraw (w : Word) (d : Diag) (info : Word) : (s.endStep w d info).redraw = s.redraw := rfl
@[simp] theorem endStep_key (w : Word) (d : Diag) (info : Word) : (s.endStep w d info).key = s.key := rfl
@[simp] theorem endStep_out (w : Word) (d : Diag) (info : Word) : (s.endStep w d info).out = ⟨soundEdge s.st, d, info, false⟩ := rfl
@[simp] theorem endStep_diagSeen (w : Word) (d : Diag) (info : Word) : (s.endStep w d info).diagSeen = (s.diagSeen || decide (d ≠ .none)) := rfl
@[simp] theorem endStep_rndIx (w : Word) (d : Diag) (info : Word) : (s.endStep w d info).rndIx = s.rndIx := rfl
@[simp] theorem endStep_font (w : Word) (d : Diag) (info : Word) : (s.endStep w d info).font = s.font := rfl
@[simp] theorem endStep_reg (w : Word) (d : Diag) (info : Word) (r : RegIx) : (s.endStep w d info).reg r = s.reg r := rfl
@[simp] theorem endStep_memRead (w : Word) (d : Diag) (info : Word) (a : Nat) : (s.endStep w d info).memRead a = s.memRead a := rfl
@[simp] theorem endStep_pixel (w : Word) (d : Diag) (info : Word) (px : Fin 64) (py : Fin 32) : (s.endStep w d info).pixel px py = s.pixel px py := rfl
@[simp] theorem endStep_keyPressed (w : Word) (d : Diag) (info : Word) (k : Nat) : (s.endStep w d info).keyPressed k = s.keyPressed k := rfl
@[simp] theorem endStep_indexed (w : Word) (d : Diag) (info : Word) (k : Nat) : (s.endStep w d info).indexed k = s.indexed k := rfl

/-! `complete` -/

@[simp] theorem complete_v (w : Word) : (s.complete w).v = s.v := rfl
@[simp] theorem complete_i (w : Word) : (s.complete w).i = s.i := rfl
@[simp] theorem complete_pc (w : Word) : (s.complete w).pc = w := rfl
@[simp] theorem complete_sp (w : Word) : (s.complete w).sp = s.sp := rfl
@[simp] theorem complete_stack (w : Word) : (s.complete w).stack = s.stack := rfl
@[simp] theorem complete_dt (w : Word) : (s.complete w).dt = tickTimer s.dt := rfl
@[simp] theorem complete_st (w : Word) : (s.complete w).st = tickTimer s.st := rfl
@[simp] theorem complete_mem (w : Word) : (s.complete w).mem = s.mem := rfl
@[simp] theorem complete_fb (w : Word) : (s.complete w).fb = s.fb := rfl
@[simp] theorem complete_redraw (w : Word) : (s.complete w).redraw = s.redraw := rfl
@[simp] theorem complete_key (w : Word) : (s.complete w).key = s.key := rfl
@[simp] theorem complete_out (w : Word) : (s.complete w).out = ⟨soundEdge s.st, .none, 0, false⟩ := rfl
@[simp] theorem complete_rndIx (w : Word) : (s.complete w).rndIx = s.rndIx := rfl
@[simp] theorem complete_font (w : Word) : (s.complete w).font = s.font := rfl
@[simp] theorem complete_reg (w : Word) (r : RegIx) : (s.complete w).reg r = s.reg r := rfl
@[simp] theorem complete_memRead (w : Word) (a : Nat) : (s.complete w).memRead a = s.memRead a := rfl
@[simp] theorem complete_pixel (w : Word) (px : Fin 64) (py : Fin 32) : (s.complete w).pixel px py = s.pixel px py := rfl
@[simp] theorem complete_keyPressed (w : Word) (k : Nat) : (s.complete w).keyPressed k = s.keyPressed k := rfl
@[simp] theorem complete_indexed (w : Word) (k : Nat) : (s.complete w).indexed k = s.indexed k := rfl

/-! `advance` -/

@[simp] theorem advance_v : (s.advance).v = s.v := rfl
@[simp] theorem advance_i : (s.advance).i = s.i := rfl
@[simp] theorem advance_pc : (s.advance).pc = s.pcNext := rfl
@[simp] theorem advance_sp : (s.advance).sp = s.sp := rfl
@[simp] theorem advance_stack : (s.advance).stack = s.stack := rfl
@[simp] theorem advance_dt : (s.advance).dt = tickTimer s.dt := rfl
@[simp] theorem advance_st : (s.advance).st = tickTimer s.st := rfl
@[simp] theorem advance_mem : (s.advance).mem = s.mem := rfl
@[simp] theorem advance_fb : (s.advance).fb = s.fb := rfl
@[simp] theorem advance_redraw : (s.advance).redraw = s.redraw := rfl
@[simp] theorem advance_key : (s.advance).key = s.key := rfl
@[simp] theorem advance_out : (s.advance).out = ⟨soundEdge s.st, .none, 0, false⟩ := rfl
@[simp] theorem advance_rndIx : (s.advance).rndIx = s.rndIx := rfl
@[simp] theorem advance_font : (s.advance).font = s.font := rfl
@[simp] theorem advance_reg (r : RegIx) : (s.advance).reg r = s.reg r := rfl
@[simp] theorem advance_memRead (a : Nat) : (s.advance).memRead a = s.memRead a := rfl
@[simp] theorem advance_pixel (px : Fin 64) (py : Fin 32) : (s.advance).pixel px py = s.pixel px py := rfl
@[simp] theorem advance_keyPressed (k : Nat) : (s.advance).keyPressed k = s.keyPressed k := rfl
@[simp] theorem advance_indexed (k : Nat) : (s.advance).indexed k = s.indexed k := rfl

/-! `skipIf` -/

@[simp] theorem skipIf_v (c : Bool) : (s.skipIf c).v = s.v := rfl
@[simp] theorem skipIf_i (c : Bool) : (s.skipIf c).i = s.i := rfl
@[simp] theorem skipIf_pc (c : Bool) : (s.skipIf c).pc = (if c then s.pcSkip else s.pcNext) := rfl
@[simp] theorem skipIf_sp (c : Bool) : (s.skipIf c).sp = s.sp := rfl
@[simp] theorem skipIf_stack (c : Bool) : (s.skipIf c).stack = s.stack := rfl
@[simp] theorem skipIf_dt (c : Bool) : (s.skipIf c).dt = tickTimer s.dt := rfl
@[simp] theorem skipIf_st (c : Bool) : (s.skipIf c).st = tickTimer s.st := rfl
@[simp] theorem skipIf_mem (c : Bool) : (s.skipIf c).mem = s.mem := rfl
@[simp] theorem skipIf_fb (c : Bool) : (s.skipIf c).fb = s.fb := rfl
@[simp] theorem skipIf_redraw (c : Bool) : (s.skipIf c).redraw = s.redraw := rfl
@[simp] theorem skipIf_key (c : Bool) : (s.skipIf c).key = s.key := rfl
@[simp] theorem skipIf_out (c : Bool) : (s.skipIf c).out = ⟨soundEdge s.st, .none, 0, false⟩ := rfl
@[simp] theorem skipIf_rndIx (c : Bool) : (s.skipIf c).rndIx = s.rndIx := rfl
@[simp] theorem skipIf_font (c : Bool) : (s.skipIf c).font = s.font := rfl
@[simp] theorem skipIf_reg (c : Bool) (r : RegIx) : (s.skipIf c).reg r = s.reg r := rfl
@[simp] theorem skipIf_memRead (c : Bool) (a : Nat) : (s.skipIf c).memRead a = s.memRead a := rfl
@[simp] theorem skipIf_pixel (c : Bool) (px : Fin 64) (py : Fin 32) : (s.skipIf c).pixel px py = s.pixel px py := rfl
@[simp] theorem skipIf_keyPressed (c : Bool) (k : Nat) : (s.skipIf c).keyPressed k = s.keyPressed k := rfl
@[simp] theorem skipIf_indexed (c : Bool) (k : Nat) : (s.skipIf c).indexed k = s.indexed k := rfl

/-! `raise` -/

@[simp] theorem raise_v (d : Diag) (info : Word) : (s.raise d info).v = s.v := rfl
@[simp] theorem raise_i (d : Diag) (info : Word) : (s.raise d info).i = s.i := rfl
@[simp] theorem raise_pc (d : Diag) (info : Word) : (s.raise d info).pc = s.pcNext := rfl
@[simp] theorem raise_sp (d : Diag) (info : Word) : (s.raise d info).sp = s.sp := rfl
@[simp] theorem raise_stack (d : Diag) (info : Word) : (s.raise d info).stack = s.stack := rfl
@[simp] theorem raise_dt (d : Diag) (info : Word) : (s.raise d info).dt = tickTimer s.dt := rfl
@[simp] theorem raise_st (d : Diag) (info : Word) : (s.raise d info).st = tickTimer s.st := rfl
@[simp] theorem raise_mem (d : Diag) (info : Word) : (s.raise d info).mem = s.mem := rfl
@[simp] theorem raise_fb (d : Diag) (info : Word) : (s.raise d info).fb = s.fb := rfl
@[simp] theorem raise_redraw (d : Diag) (info : Word) : (s.raise d info).redraw = s.redraw := rfl
@[simp] theorem raise_key (d : Diag) (info : Word) : (s.raise d info).key = s.key := rfl
@[simp] theorem raise_out (d : Diag) (info : Word) : (s.raise d info).out = ⟨soundEdge s.st, d, info, false⟩ := rfl
@[simp] theorem raise_diagSeen (d : Diag) (info : Word) : (s.raise d info).diagSeen = (s.diagSeen || decide (d ≠ .none)) := rfl
@[simp] theorem raise_rndIx (d : Diag) (info : Word) : (s.raise d info).rndIx = s.rndIx := rfl
@[simp] theorem raise_font (d : Diag) (info : Word) : (s.raise d info).font = s.font := rfl
@[simp] theorem raise_reg (d : Diag) (info : Word) (r : RegIx) : (s.raise d info).reg r = s.reg r := rfl
@[simp] theorem raise_memRead (d : Diag) (info : Word) (a : Nat) : (s.raise d info).memRead a = s.memRead a := rfl
@[simp] theorem raise_pixel (d : Diag) (info : Word) (px : Fin 64) (py : Fin 32) : (s.raise d info).pixel px py = s.pixel px py := rfl
@[simp] theorem raise_keyPressed (d : Diag) (info : Word) (k : Nat) : (s.raise d info).keyPressed k = s.keyPressed k := rfl
@[simp] theorem raise_indexed (d : Diag) (info : Word) (k : Nat) : (s.raise d info).indexed k = s.indexed k := rfl

/-! `wait` -/

@[simp] theorem wait_v : (s.wait).v = s.v := rfl
@[simp] theorem wait_i : (s.wait).i = s.i := rfl
@[simp] theorem wait_pc : (s.wait).pc = s.pc := rfl
@[simp] theorem wait_sp : (s.wait).sp = s.sp := rfl
@[simp] theorem wait_stack : (s.wait).stack = s.stack := rfl
@[simp] theorem wait_dt : (s.wait).dt = s.dt := rfl
@[simp] theorem wait_st : (s.wait).st = s.st := rfl
@[simp] theorem wait_mem : (s.wait).mem = s.mem := rfl
@[simp] theorem wait_fb : (s.wait).fb = s.fb := rfl
@[simp] theorem wait_redraw : (s.wait).redraw = s.redraw := rfl
@[simp] theorem wait_key : (s.wait).key = s.key := rfl
@[simp] theorem wait_out : (s.wait).out = ⟨false, .none, 0, true⟩ := rfl
@[simp] theorem wait_diagSeen : (s.wait).diagSeen = s.diagSeen := rfl
@[simp] theorem wait_rndIx : (s.wait).rndIx = s.rndIx := rfl
@[simp] theorem wait_font : (s.wait).font = s.font := rfl
@[simp] theorem wait_reg (r : RegIx) : (s.wait).reg r = s.reg r := rfl
@[simp] theorem wait_memRead (a : Nat) : (s.wait).memRead a = s.memRead a := rfl
@[simp] theorem wait_pixel (px : Fin 64) (py : Fin 32) : (s.wait).pixel px py = s.pixel px py := rfl
@[simp] theorem wait_keyPressed (k : Nat) : (s.wait).keyPressed k = s.keyPressed k := rfl
@[simp] theorem wait_indexed (k : Nat) : (s.wait).indexed k = s.indexed k := rfl

/-! `keyWrite` -/

@[simp] theorem keyWrite_v (kn : Nib) (b : Bool) : (s.keyWrite kn b).v = s.v := rfl
@[simp] theorem keyWrite_i (kn : Nib) (b : Bool) : (s.keyWrite kn b).i = s.i := rfl
@[simp] theorem keyWrite_pc (kn : Nib) (b : Bool) : (s.keyWrite kn b).pc = s.pc := rfl
@[simp] theorem keyWrite_sp (kn : Nib) (b : Bool) : (s.keyWrite kn b).sp = s.sp := rfl
@[simp] theorem keyWrite_stack (kn : Nib) (b : Bool) : (s.keyWrite kn b).stack = s.stack := rfl
@[simp] theorem keyWrite_dt (kn : Nib) (b : Bool) : (s.keyWrite kn b).dt = s.dt := rfl
@[simp] theorem keyWrite_st (kn : Nib) (b : Bool) : (s.keyWrite kn b).st = s.st := rfl
@[simp] theorem keyWrite_mem (kn : Nib) (b : Bool) : (s.keyWrite kn b).mem = s.mem := rfl
@[simp] theorem keyWrite_fb (kn : Nib) (b : Bool) : (s.keyWrite kn b).fb = s.fb := rfl
@[simp] theorem keyWrite_redraw (kn : Nib) (b : Bool) : (s.keyWrite kn b).redraw = s.redraw := rfl
@[simp] theorem keyWrite_out (kn : Nib) (b : Bool) : (s.keyWrite kn b).out = s.out := rfl
@[simp] theorem keyWrite_diagSeen (kn : Nib) (b : Bool) : (s.keyWrite kn b).diagSeen = s.diagSeen := rfl
@[simp] theorem keyWrite_rndIx (kn : Nib) (b : Bool) : (s.keyWrite kn b).rndIx = s.rndIx := rfl
@[simp] theorem keyWrite_font (kn : Nib) (b : Bool) : (s.keyWrite kn b).font = s.font := rfl
@[simp] theorem keyWrite_reg (kn : Nib) (b : Bool) (r : RegIx) : (s.keyWrite kn b).reg r = s.reg r := rfl
@[simp] theorem keyWrite_memRead (kn : Nib) (b : Bool) (a : Nat) : (s.keyWrite kn b).memRead a = s.memRead a := rfl
@[simp] theorem keyWrite_pixel (kn : Nib) (b : Bool) (px : Fin 64) (py : Fin 32) : (s.keyWrite kn b).pixel px py = s.pixel px py := rfl
@[simp] theorem keyWrite_indexed (kn : Nib) (b : Bool) (k : Nat) : (s.keyWrite kn b).indexed k = s.indexed k := rfl

/-! `redrawClear` -/

@[simp] theorem redrawClear_v : (s.redrawClear).v = s.v := rfl
@[simp] theorem redrawClear_i : (s.redrawClear).i = s.i := rfl
@[simp] theorem redrawClear_pc : (s.redrawClear).pc = s.pc := rfl
@[simp] theorem redrawClear_sp : (s.redrawClear).sp = s.sp := rfl
@[simp] theorem redrawClear_stack : (s.redrawClear).stack = s.stack := rfl
@[simp] theorem redrawClear_dt : (s.redrawClear).dt = s.dt := rfl
@[simp] theorem redrawClear_st : (s.redrawClear).st = s.st := rfl
@[simp] theorem redrawClear_mem : (s.redrawClear).mem = s.mem := rfl
@[simp] theorem redrawClear_fb : (s.redrawClear).fb = s.fb := rfl
@[simp] theorem redrawClear_redraw : (s.redrawClear).redraw = false := rfl
@[simp] theorem redrawClear_key : (s.redrawClear).key = s.key := rfl
@[simp] theorem redrawClear_out : (s.redrawClear).out = s.out := rfl
@[simp] theorem redrawClear_diagSeen : (s.redrawClear).diagSeen = s.diagSeen := rfl
@[simp] theorem redrawClear_rndIx : (s.redrawClear).rndIx = s.rndIx := rfl
@[simp] theorem redrawClear_font : (s.redrawClear).font = s.font := rfl
@[simp] theorem redrawClear_reg (r : RegIx) : (s.redrawClear).reg r = s.reg r := rfl
@[simp] theorem redrawClear_memRead (a : Nat) : (s.redrawClear).memRead a = s.memRead a := rfl
@[simp] theorem redrawClear_pixel (px : Fin 64) (py : Fin 32) : (s.redrawClear).pixel px py = s.pixel px py := rfl
@[simp] theorem redrawClear_keyPressed (k : Nat) : (s.redrawClear).keyPressed k = s.keyPressed k := rfl
@[simp] theorem redrawClear_indexed (k : Nat) : (s.redrawClear).indexed k = s.indexed k := rfl

/-! `hostReset` -/

@[simp] theorem hostReset_v : (s.hostReset).v = (State.resetWith s.font).v := rfl
@[simp] theorem hostReset_i : (s.hostReset).i = (State.resetWith s.font).i := rfl
@[simp] theorem hostReset_pc : (s.hostReset).pc = (State.resetWith s.font).pc := rfl
@[simp] theorem hostReset_sp : (s.hostReset).sp = (State.resetWith s.font).sp := rfl
@[simp] theorem hostReset_stack : (s.hostReset).stack = (State.resetWith s.font).stack := rfl
@[simp] theorem hostReset_dt : (s.hostReset).dt = (State.resetWith s.font).dt := rfl
@[simp] theorem hostReset_st : (s.hostReset).st = (State.resetWith s.font).st := rfl
@[simp] theorem hostReset_mem : (s.hostReset).mem = (State.resetWith s.font).mem := rfl
@[simp] theorem hostReset_fb : (s.hostReset).fb = (State.resetWith s.font).fb := rfl
@[simp] theorem hostReset_redraw : (s.hostReset).redraw = (State.resetWith s.font).redraw := rfl
@[simp] theorem hostReset_key : (s.hostReset).key = (State.resetWith s.font).key := rfl
@[simp] theorem hostReset_out : (s.hostReset).out = (State.resetWith s.font).out := rfl
@[simp] theorem hostReset_diagSeen : (s.hostReset).diagSeen = (State.resetWith s.font).diagSeen := rfl
@[simp] theorem hostReset_rndIx : (s.hostReset).rndIx = s.rndIx := rfl
@[simp] theorem hostReset_font : (s.hostReset).font = s.font := rfl

/-! A step that reports nothing leaves the sticky record as it was. -/

@[simp] theorem complete_diagSeen (w : Word) : (s.complete w).diagSeen = s.diagSeen := by simp [complete]
@[simp] theorem advance_diagSeen : s.advance.diagSeen = s.diagSeen := by simp [advance]
@[simp] theorem skipIf_diagSeen (c : Bool) : (s.skipIf c).diagSeen = s.diagSeen := by simp [skipIf]

end State
end Sys2Proof.Machine
end

