-- ==== Sys2Proof/Laws/Ops.lean ====
section
/-! SUPPORT. One specification lemma for each shared operation: what it can do, said once. -/

namespace Sys2Proof.Machine

/-! Registers -/

theorem State.reg_setReg (s : State) (x r : RegIx) (b : Byte) :
    (s.setReg x b).reg r = if x = r then b else s.reg r := by
  simp only [State.reg, State.setReg, Vector.getElem_set, BitVec.toNat_inj]

@[simp] theorem State.reg_setReg_self (s : State) (x : RegIx) (b : Byte) : (s.setReg x b).reg x = b := by
  simp [State.reg_setReg]

/-- Result and flag (spec/42_load_arith_logic.md R113): `VF` holds the flag, whatever the destination; another register
holds the result if it is the destination, and its old value if not. -/
theorem State.reg_setRegFlag (s : State) (x r : RegIx) (b f : Byte) :
    (s.setRegFlag x b f).reg r = if r = vf then f else if r = x then b else s.reg r := by
  simp only [State.setRegFlag, State.reg_setReg, eq_comm]

/-- Two register files that read alike are the same. -/
theorem State.v_ext {s t : State} (h : ∀ r, s.reg r = t.reg r) : s.v = t.v := by
  apply Vector.ext
  intro k hk
  have := h (BitVec.ofNat 4 k)
  simp only [State.reg, BitVec.toNat_ofNat] at this
  have e : k % 2 ^ 4 = k := Nat.mod_eq_of_lt hk
  simpa only [e] using this

/-! Timers -/

/-- The tick counts a timer down, stopping at 0 (spec/40_step_cycle.md R85). -/
theorem tickTimer_toNat (t : Byte) : (tickTimer t).toNat = t.toNat - 1 := by
  unfold tickTimer
  split
  · next h => rw [h]; rfl
  · next h =>
    have h0 : t.toNat ≠ 0 := fun e => h (BitVec.eq_of_toNat_eq e)
    have := t.isLt
    rw [BitVec.toNat_sub]
    show (2 ^ 8 - 1 + t.toNat) % 2 ^ 8 = _
    omega

theorem soundEdge_iff (t : Byte) : soundEdge t = true ↔ t = 1 := by simp [soundEdge]

/-! Stack -/

/-- A push on a full stack is refused, and on any other stores the word at SP and counts it
(spec/41_control_flow.md R92). -/
theorem State.push?_spec (s : State) (w : Word) :
    (s.sp.val = 16 ∧ s.push? w = none) ∨
    ∃ h : s.sp.val < 16, s.push? w =
      some { s with stack := s.stack.set s.sp.val w h, sp := ⟨s.sp.val + 1, Nat.succ_lt_succ h⟩ } := by
  unfold State.push?
  split
  · next h => exact .inr ⟨h, rfl⟩
  · next h => exact .inl ⟨by have := s.sp.isLt; omega, rfl⟩

/-- A pop of an empty stack is refused, and of any other answers the entry below SP and uncounts it
(spec/41_control_flow.md R90). -/
theorem State.pop?_spec (s : State) :
    (s.sp.val = 0 ∧ s.pop? = none) ∨
    ∃ (k : Nat) (h : k < 16), s.sp.val = k + 1 ∧ s.pop? = some (s.stack[k], { s with sp := ⟨k, Nat.lt_succ_of_lt h⟩ }) := by
  unfold State.pop?
  split
  · next h => exact .inl ⟨h, rfl⟩
  · next h =>
    have := s.sp.isLt
    exact .inr ⟨s.sp.val - 1, by omega, by omega, rfl⟩

/-! Fetch -/

theorem State.fetch_toNat (s : State) :
    s.fetch.toNat = (s.memRead s.pc.toNat).toNat * 256 + (s.memRead (s.pc.toNat + 1)).toNat :=
  opcodeOfBytes_toNat _ _

/-! Block transfers (spec/43_index_memory.md R125, R126) -/

/-- The first `n` stores change memory only. -/
theorem State.storeFirst_frame (s : State) (n : Nat) : s.storeFirst n = { s with mem := (s.storeFirst n).mem } := by
  induction n with
  | zero => rfl
  | succ n ih => simp only [State.storeFirst]; rw [ih]; rfl

theorem State.storeFirst_wf {s : State} (h : s.memWf = true) (n : Nat) :
    (s.storeFirst n).memWf = true := by
  induction n with
  | zero => exact h
  | succ n ih => exact State.wf_memWrite ih _ _

/-- After the first `n` stores byte `k < n` of the block holds `V[k]`. -/
theorem State.storeFirst_memRead {s : State} (h : s.memWf = true) {n k : Nat} (hn : n ≤ 4096) (hk : k < n) :
    (s.storeFirst n).memRead (s.indexed k) = s.reg (BitVec.ofNat 4 k) := by
  induction n with
  | zero => omega
  | succ n ih =>
    rw [State.storeFirst, State.memRead_memWrite (State.storeFirst_wf h n)]
    by_cases e : k = n
    · simp [e]
    · rw [if_neg (by simp only [State.indexed]; omega)]
      exact ih (by omega) (by omega)

/-- After the first `n` stores every other byte is as it was. -/
theorem State.storeFirst_memRead_other (s : State) {n a : Nat} (ha : ∀ k < n, s.indexed k % 4096 ≠ a % 4096) :
    (s.storeFirst n).memRead a = s.memRead a := by
  induction n with
  | zero => rfl
  | succ n ih =>
    rw [State.storeFirst, State.memRead_memWrite_other _ _ (ha n (Nat.lt_succ_self n))]
    exact ih fun k hk => ha k (Nat.lt_succ_of_lt hk)

/-- The first `n` loads change registers only. -/
theorem State.loadFirst_frame (s : State) (n : Nat) : s.loadFirst n = { s with v := (s.loadFirst n).v } := by
  induction n with
  | zero => rfl
  | succ n ih => simp only [State.loadFirst]; rw [ih]; rfl

/-- After the first `n` loads register `r` holds its byte of the block if it is among the first `n`, and its old value
if not. -/
theorem State.loadFirst_reg (s : State) {n : Nat} (hn : n ≤ 16) (r : RegIx) :
    (s.loadFirst n).reg r = if r.toNat < n then s.memRead (s.indexed r.toNat) else s.reg r := by
  induction n with
  | zero => simp [State.loadFirst]
  | succ n ih =>
    rw [State.loadFirst, State.reg_setReg, ih (by omega)]
    by_cases e : BitVec.ofNat 4 n = r
    · subst e
      have hn' : (BitVec.ofNat 4 n).toNat = n := by
        rw [BitVec.toNat_ofNat]
        exact Nat.mod_eq_of_lt (by omega)
      simp [hn']
    · have hne : r.toNat ≠ n := fun he => e (by rw [← he]; simp)
      rw [if_neg e]
      by_cases h1 : r.toNat < n
      · rw [if_pos h1, if_pos (by omega)]
      · rw [if_neg h1, if_neg (by omega)]

/-- The quirk is off: `I` is unchanged (spec/43_index_memory.md R125). -/
@[simp] theorem State.indexQuirk_off (s : State) (x : RegIx) : s.indexQuirk x = s := by
  simp [State.indexQuirk, quirkLoadStoreIncI]

/-! Loading a program (spec/70_reset_and_hazards.md R173) -/

/-- Storing bytes changes memory only. -/
theorem State.storeBytes_frame (s : State) (a : Nat) (bs : List Byte) :
    s.storeBytes a bs = { s with mem := (s.storeBytes a bs).mem } := by
  induction bs generalizing s a with
  | nil => rfl
  | cons b bs ih => rw [State.storeBytes, ih]; rfl

theorem State.storeBytes_wf {s : State} (h : s.memWf = true) (a : Nat) (bs : List Byte) :
    (s.storeBytes a bs).memWf = true := by
  induction bs generalizing s a with
  | nil => exact h
  | cons b bs ih => exact ih (State.wf_memWrite h a b) _

/-- Bytes stored inside the memory read back, and every other byte is as it was. -/
theorem State.storeBytes_memRead {s : State} (h : s.memWf = true) {a : Nat} {bs : List Byte}
    (hl : a + bs.length ≤ 4096) :
    (∀ j < bs.length, some ((s.storeBytes a bs).memRead (a + j)) = bs[j]?) ∧
    ∀ b < 4096, (b < a ∨ a + bs.length ≤ b) → (s.storeBytes a bs).memRead b = s.memRead b := by
  induction bs generalizing s a with
  | nil => exact ⟨fun j hj => by simp at hj, fun _ _ _ => rfl⟩
  | cons c bs ih =>
    simp only [List.length_cons] at hl
    obtain ⟨i1, i2⟩ := ih (State.wf_memWrite h a c) (a := a + 1) (by omega)
    refine ⟨fun j hj => ?_, fun b hb hh => ?_⟩ <;> simp only [List.length_cons] at *
    · cases j with
      | zero =>
        rw [State.storeBytes, i2 _ (by omega) (by omega), State.memRead_memWrite h, if_pos (by rfl)]
        rfl
      | succ j =>
        rw [State.storeBytes, show a + (j + 1) = a + 1 + j by omega, i1 j (by omega)]
        rfl
    · rw [State.storeBytes, i2 b hb (by omega), State.memRead_memWrite_other]
      omega

/-! Keys (spec/45_keypad_timers.md R142) -/

theorem mem_pressedKeys {pressed : BitVec 16} {k : Nat} : k ∈ pressedKeys pressed ↔ pressed.getLsbD k = true := by
  simp only [pressedKeys, List.mem_filter, List.mem_range, and_iff_right_iff_imp]
  exact BitVec.lt_of_getLsbD

theorem pressedKeys_ne_nil {pressed : BitVec 16} (h : pressed ≠ 0) : pressedKeys pressed ≠ [] := by
  intro e
  apply h
  apply BitVec.eq_of_getLsbD_eq
  intro k hk
  have : k ∉ pressedKeys pressed := by simp [e]
  rw [mem_pressedKeys] at this
  simpa using this

/-- `KeySelect` answers a pressed key whenever one is pressed. -/
theorem keySelect_pressed {pressed : BitVec 16} (h : pressed ≠ 0) : pressed.getLsbD (keySelect pressed) = true := by
  rw [← mem_pressedKeys]
  unfold keySelect
  split
  · next e => exact absurd e (pressedKeys_ne_nil h)
  · next k e => simp [e]
  · next =>
    have hl : 0 < (pressedKeys pressed).length := List.length_pos_iff.mpr (pressedKeys_ne_nil h)
    rw [List.getD_eq_getElem _ _ (Nat.mod_lt _ hl)]
    exact List.getElem_mem _

/-! Arithmetic (spec/42_load_arith_logic.md R112) -/

theorem addByte_toNat (a b : Byte) : (addByte a b).toNat = (a.toNat + b.toNat) % 256 := by
  simp [addByte]

theorem subByte_toNat (a b : Byte) : (subByte a b).toNat = (a.toNat + 256 - b.toNat) % 256 := by
  have := a.isLt; have := b.isLt
  simp only [subByte, BitVec.toNat_ofInt]
  omega

end Sys2Proof.Machine
end

