-- ==== Sys2Proof/Laws/Blit.lean ====
section
/-! SUPPORT. What the sprite blitter does to one pixel (spec/44_display.md R131 to R134). -/

namespace Sys2Proof.Machine

theorem Screen.pixel_flip (fb : Screen) (px qx : Fin 64) (py qy : Fin 32) :
    Screen.pixel (Screen.flip fb px py) qx qy = (Screen.pixel fb qx qy ^^ decide (px = qx ∧ py = qy)) := by
  unfold Screen.pixel Screen.flip
  by_cases hy : py = qy
  · subst hy
    simp only [Vector.getElem_set_self, BitVec.getLsbD_xor, BitVec.getLsbD_twoPow, Fin.ext_iff, and_true]
    have := qx.isLt
    by_cases hx : px.val = qx.val <;> simp [hx, this]
  · have hv : py.val ≠ qy.val := fun e => hy (Fin.ext e)
    rw [Vector.getElem_set_ne _ _ hv]
    simp [hy]

@[simp] theorem Screen.pixel_blank (px : Fin 64) (py : Fin 32) : Screen.pixel Screen.blank px py = false := by
  simp [Screen.pixel, Screen.blank]

/-- Two framebuffers with the same pixels are the same. -/
theorem Screen.ext {fb fb' : Screen} (h : ∀ px py, Screen.pixel fb px py = Screen.pixel fb' px py) : fb = fb' := by
  apply Vector.ext
  intro k hk
  apply BitVec.eq_of_getLsbD_eq
  intro j hj
  exact h ⟨j, hj⟩ ⟨k, hk⟩

/-- The sprite row with byte `byte`, `n` columns wide, at column `vx`, sets the pixel of column `px`. -/
def rowBit (vx : Nat) (byte : Byte) (n : Nat) (px : Fin 64) : Bool :=
  decide ((px.val + 64 - vx % 64) % 64 < n) && spriteBit byte ((px.val + 64 - vx % 64) % 64)

theorem rowBit_succ {vx : Nat} {byte : Byte} {c : Nat} (hc : c < 8) (px : Fin 64) :
    rowBit vx byte (c + 1) px = (rowBit vx byte c px ^^ (spriteBit byte c && decide (Fin.ofNat 64 (vx + c) = px))) ∧
    (Fin.ofNat 64 (vx + c) = px → rowBit vx byte c px = false) := by
  have hp := px.isLt
  have key : Fin.ofNat 64 (vx + c) = px ↔ (px.val + 64 - vx % 64) % 64 = c := by
    rw [Fin.ext_iff]
    simp only [Fin.ofNat]
    omega
  simp only [key]
  unfold rowBit
  generalize (px.val + 64 - vx % 64) % 64 = d
  rcases Nat.lt_trichotomy d c with h | h | h
  · have h1 : d < c + 1 := by omega
    have h2 : d ≠ c := by omega
    simp [h, h1, h2]
  · subst h
    simp
  · have h1 : ¬ d < c := by omega
    have h2 : ¬ d < c + 1 := by omega
    have h3 : d ≠ c := by omega
    simp [h1, h2, h3]

/-- One sprite row: the pixels of framebuffer row `vy + r` that the row's byte sets are inverted; a collision is
recorded if one of them was on. -/
theorem Blit.row_spec (b : Blit) (vx vy r : Nat) (byte : Byte) {n : Nat} (hn : n ≤ 8) :
    (∀ px py, Screen.pixel (b.row vx vy r byte n).fb px py =
      (Screen.pixel b.fb px py ^^ (decide (py = Fin.ofNat 32 (vy + r)) && rowBit vx byte n px))) ∧
    ((b.row vx vy r byte n).collision = true ↔
      b.collision = true ∨ ∃ px, Screen.pixel b.fb px (Fin.ofNat 32 (vy + r)) = true ∧ rowBit vx byte n px = true) := by
  induction n with
  | zero => simp [Blit.row, rowBit]
  | succ c ih =>
    obtain ⟨ih1, ih2⟩ := ih (by omega)
    have hs := fun px => rowBit_succ (vx := vx) (byte := byte) (show c < 8 by omega) px
    unfold Blit.row
    cases hb : spriteBit byte c with
    | false =>
      have e : ∀ px, rowBit vx byte (c + 1) px = rowBit vx byte c px := fun px => by rw [(hs px).1, hb]; simp
      simp only [e]
      exact ⟨ih1, ih2⟩
    | true =>
      simp only [Blit.plot, ↓reduceIte]
      refine ⟨fun px py => ?_, ?_⟩
      · rw [Screen.pixel_flip, ih1, (hs px).1, hb]
        by_cases h1 : py = Fin.ofNat 32 (vy + r)
        · subst h1
          simp [-Fin.ofNat_eq_cast]
        · have h2 : ¬ Fin.ofNat 32 (vy + r) = py := fun e => h1 e.symm
          simp [h1, h2, -Fin.ofNat_eq_cast]
      · rw [Bool.or_eq_true, ih2, ih1]
        have hself := (hs (Fin.ofNat 64 (vx + c))).2 rfl
        rw [hself]
        simp only [decide_true, Bool.and_false, Bool.xor_false]
        constructor
        · rintro ((h | ⟨px, h1, h2⟩) | h)
          · exact .inl h
          · refine .inr ⟨px, h1, ?_⟩
            rw [(hs px).1, h2]
            have : ¬ Fin.ofNat 64 (vx + c) = px := fun e => by rw [(hs px).2 e] at h2; exact absurd h2 (by simp)
            simp [this, -Fin.ofNat_eq_cast]
          · exact .inr ⟨_, h, by rw [(hs _).1, hself, hb]; simp⟩
        · rintro (h | ⟨px, h1, h2⟩)
          · exact .inl (.inl h)
          · by_cases e : Fin.ofNat 64 (vx + c) = px
            · subst e
              exact .inr h1
            · rw [(hs px).1] at h2
              simp only [e, decide_false, Bool.and_false, Bool.xor_false] at h2
              exact .inl (.inr ⟨px, h1, h2⟩)

/-- The sprite of `n` rows with its top-left corner at (`vx`, `vy`) sets the pixel (`px`, `py`). -/
def spriteCovers (vx vy : Nat) (rows : Nat → Byte) (n : Nat) (px : Fin 64) (py : Fin 32) : Bool :=
  decide ((py.val + 32 - vy % 32) % 32 < n) && rowBit vx (rows ((py.val + 32 - vy % 32) % 32)) 8 px

theorem spriteCovers_succ {vx vy : Nat} {rows : Nat → Byte} {r : Nat} (hr : r < 32) (px : Fin 64) (py : Fin 32) :
    spriteCovers vx vy rows (r + 1) px py =
      (spriteCovers vx vy rows r px py ^^ (decide (py = Fin.ofNat 32 (vy + r)) && rowBit vx (rows r) 8 px)) ∧
    (py = Fin.ofNat 32 (vy + r) → spriteCovers vx vy rows r px py = false) := by
  have hp := py.isLt
  have key : py = Fin.ofNat 32 (vy + r) ↔ (py.val + 32 - vy % 32) % 32 = r := by
    rw [Fin.ext_iff]
    simp only [Fin.ofNat]
    omega
  simp only [key]
  unfold spriteCovers
  generalize (py.val + 32 - vy % 32) % 32 = d
  rcases Nat.lt_trichotomy d r with h | h | h
  · have h1 : d < r + 1 := by omega
    have h2 : d ≠ r := by omega
    simp [h, h1, h2]
  · subst h
    simp
  · have h1 : ¬ d < r := by omega
    have h2 : ¬ d < r + 1 := by omega
    have h3 : d ≠ r := by omega
    simp [h1, h2, h3]

/-- The blitter: exactly the pixels the sprite covers are inverted; a collision is recorded if one of them was on
(R133, R134). -/
theorem Blit.rows_spec (b : Blit) (vx vy : Nat) (rows : Nat → Byte) {n : Nat} (hn : n ≤ 32) :
    (∀ px py, Screen.pixel (b.rows vx vy rows n).fb px py =
      (Screen.pixel b.fb px py ^^ spriteCovers vx vy rows n px py)) ∧
    ((b.rows vx vy rows n).collision = true ↔
      b.collision = true ∨ ∃ px py, Screen.pixel b.fb px py = true ∧ spriteCovers vx vy rows n px py = true) := by
  induction n with
  | zero => simp [Blit.rows, spriteCovers]
  | succ r ih =>
    obtain ⟨ih1, ih2⟩ := ih (by omega)
    have hs := fun px py => spriteCovers_succ (vx := vx) (vy := vy) (rows := rows) (show r < 32 by omega) px py
    obtain ⟨h1, h2⟩ := Blit.row_spec (b.rows vx vy rows r) vx vy r (rows r) (le_refl 8)
    unfold Blit.rows
    refine ⟨fun px py => by rw [h1, ih1, (hs px py).1, Bool.xor_assoc], ?_⟩
    rw [h2, ih2]
    constructor
    · rintro ((h | ⟨px, py, h3, h4⟩) | ⟨px, h3, h4⟩)
      · exact .inl h
      · refine .inr ⟨px, py, h3, ?_⟩
        rw [(hs px py).1, h4]
        have : ¬ py = Fin.ofNat 32 (vy + r) := fun e => by rw [(hs px py).2 e] at h4; exact absurd h4 (by simp)
        simp [this, -Fin.ofNat_eq_cast]
      · rw [ih1, (hs px _).2 rfl, Bool.xor_false] at h3
        refine .inr ⟨px, _, h3, ?_⟩
        rw [(hs px _).1, (hs px _).2 rfl, h4]
        simp
    · rintro (h | ⟨px, py, h3, h4⟩)
      · exact .inl (.inl h)
      · by_cases e : py = Fin.ofNat 32 (vy + r)
        · subst e
          rw [(hs px _).1, (hs px _).2 rfl] at h4
          refine .inr ⟨px, ?_, by simpa using h4⟩
          rw [ih1, (hs px _).2 rfl, Bool.xor_false]
          exact h3
        · rw [(hs px py).1] at h4
          simp only [e, decide_false, Bool.false_and, Bool.xor_false] at h4
          exact .inl (.inr ⟨px, py, h3, h4⟩)

/-- What `Dxyn`'s blitter does to the machine's framebuffer. -/
theorem State.blit_spec (s : State) (vx vy : Byte) (n : Nib) :
    (∀ px py, Screen.pixel (s.blit vx vy n).fb px py =
      (s.pixel px py ^^ spriteCovers vx.toNat vy.toNat (fun r => s.memRead (s.indexed r)) n.toNat px py)) ∧
    ((s.blit vx vy n).collision = true ↔ ∃ px py, s.pixel px py = true ∧
      spriteCovers vx.toNat vy.toNat (fun r => s.memRead (s.indexed r)) n.toNat px py = true) := by
  have hn : n.toNat ≤ 32 := by have := n.isLt; omega
  obtain ⟨h1, h2⟩ := Blit.rows_spec { fb := s.fb, collision := false } vx.toNat vy.toNat
    (fun r => s.memRead (s.indexed r)) hn
  exact ⟨h1, by simpa [State.blit, State.pixel] using h2⟩

end Sys2Proof.Machine
end

