-- ==== Sys2Proof/Laws/Claims.lean ====
section
/-! SUPPORT. The vocabulary of the statements, proved once for the shared operations: how a step ends, and what it leaves
alone. -/

namespace Sys2Proof.Machine

/-- The opcode at PC is what `fetch` reads. -/
theorem opAt_eq_fetch (s : State) : opAt s = s.fetch := rfl

/-- The step is the fetched instruction's meaning, or the report of an unknown opcode. -/
theorem step_of_instr {s : State} {i : Instr} (h : decode (opAt s) = .instr i) : step s = exec i s := by
  rw [opAt_eq_fetch] at h
  simp only [step, h]

theorem step_of_unknown {s : State} {op : Word} (h : decode (opAt s) = .unknown op) : step s = execUnknown op s := by
  rw [opAt_eq_fetch] at h
  simp only [step, h]

/-- How a completed step ends, whatever the effect `e` before it made of `s`. -/
theorem ends_endStep {e : State} (w : Word) (d : Diag) (info : Word) :
    Ends (e.endStep w d info) w e.dt e.st d info := by
  refine ⟨rfl, tickTimer_toNat _, tickTimer_toNat _, ?_, rfl, rfl, rfl⟩
  rw [State.endStep_out, soundEdge_iff, ← BitVec.toNat_inj]
  rfl

theorem ends_complete {e : State} (w : Word) :
    Ends (e.complete w) w e.dt e.st .none 0 :=
  ends_endStep w .none 0

theorem completes_complete {s e : State} (w : Word) (hd : e.dt = s.dt) (hs : e.st = s.st) :
    Completes s (e.complete w) w := by
  have := ends_complete (e := e) w
  rwa [hd, hs] at this

theorem completes_advance {s e : State} (hd : e.dt = s.dt) (hs : e.st = s.st)
    (hp : e.pc = s.pc) : Completes s e.advance (s.pc + 2) := by
  rw [← hp]
  exact completes_complete (e := e) e.pcNext hd hs

theorem completes_skipIf (s : State) (c : Bool) :
    Completes s (s.skipIf c) (if c = true then s.pc + 4 else s.pc + 2) :=
  completes_complete (e := s) _ rfl rfl

/-- The end of a step changes no register, no memory, no stack, no screen and no input. -/
theorem onlyRegs_endStep {s e : State} (w : Word) (d : Diag) (info : Word) {l : List RegIx} (h : OnlyRegs s e l) :
    OnlyRegs s (e.endStep w d info) l := h

theorem onlyRegs_refl (s : State) (l : List RegIx) : OnlyRegs s s l :=
  ⟨fun _ _ => rfl, rfl, ⟨rfl, fun _ => rfl⟩, fun _ => rfl, ⟨fun _ _ => rfl, rfl⟩, rfl, rfl, rfl⟩

theorem onlyRegs_setReg (s : State) (x : RegIx) (b : Byte) : OnlyRegs s (s.setReg x b) [x] := by
  refine ⟨fun r hr => ?_, rfl, ⟨rfl, fun _ => rfl⟩, fun _ => rfl, ⟨fun _ _ => rfl, rfl⟩, rfl, rfl, rfl⟩
  rw [State.reg_setReg, if_neg]
  rintro rfl
  simp at hr

theorem onlyRegs_setRegFlag (s : State) (x : RegIx) (b f : Byte) : OnlyRegs s (s.setRegFlag x b f) [x, vf] := by
  refine ⟨fun r hr => ?_, rfl, ⟨rfl, fun _ => rfl⟩, fun _ => rfl, ⟨fun _ _ => rfl, rfl⟩, rfl, rfl, rfl⟩
  simp only [List.mem_cons, List.not_mem_nil, or_false, not_or] at hr
  rw [State.reg_setRegFlag, if_neg hr.2, if_neg hr.1]

/-- What `raise` does, said once (spec/60_exceptions.md R150). -/
theorem reports_raise (s : State) (d : Diag) (info : Word) : Reports s (s.raise d info) d info :=
  ⟨ends_endStep (e := s) s.pcNext d info, onlyRegs_refl s []⟩

/-- What a next state can be, said once for every instruction: a claim about every instruction follows from the nine forms
of its next state. -/
theorem exec_elim {P : Instr → State → State → Prop}
    (retEmpty : ∀ s : State, s.sp.val = 0 → P .ret s (s.raise .stackUnderflow 0x00EE#16))
    (retPop : ∀ (s : State) (k : Fin 16), s.sp.val = k.val + 1 →
      P .ret s (({ s with sp := ⟨k.val, Nat.lt_succ_of_lt k.isLt⟩ } : State).complete (s.entry k)))
    (callFull : ∀ (s : State) (nnn : Addr12), s.sp.val = 16 →
      P (.call nnn) s (s.raise .stackOverflow (encode (.call nnn))))
    (callPush : ∀ (s : State) (nnn : Addr12) (h : s.sp.val < 16), P (.call nnn) s
      (({ s with stack := s.stack.set s.sp.val s.pcNext h, sp := ⟨s.sp.val + 1, Nat.succ_lt_succ h⟩ } :
        State).complete (zext16 nnn)))
    (keyWait : ∀ (s : State) (x : RegIx), s.key = 0 → P (.ldVxK x) s s.wait)
    (keyLoad : ∀ (s : State) (x : RegIx), s.key ≠ 0 →
      P (.ldVxK x) s (s.setReg x (BitVec.ofNat 8 (keySelect s.key))).advance)
    (store : ∀ (s : State) (x : RegIx), P (.storeRegs x) s (s.storeFirst (x.toNat + 1)).advance)
    (load : ∀ (s : State) (x : RegIx), P (.loadRegs x) s (s.loadFirst (x.toNat + 1)).advance)
    (other : ∀ (i : Instr) (s t : State), exec i s = .next t → i ≠ .ret → (∀ n, i ≠ .call n) → (∀ x, i ≠ .ldVxK x) →
      (∀ x, i ≠ .storeRegs x) → (∀ x, i ≠ .loadRegs x) → P i s t) :
    ∀ (i : Instr) (s t : State), exec i s = .next t → P i s t := by
  intro i s t h
  cases i
  case ret =>
    rcases s.pop?_spec with ⟨h0, e⟩ | ⟨j, hj, h3, e⟩ <;> simp only [exec, execRet, e] at h <;> injection h with h <;>
      subst h
    · exact retEmpty s h0
    · exact retPop s ⟨j, hj⟩ h3
  case call nnn =>
    rcases s.push?_spec s.pcNext with ⟨h0, e⟩ | ⟨hj, e⟩ <;> simp only [exec, execCall, e] at h <;>
      injection h with h <;> subst h
    · exact callFull s nnn h0
    · exact callPush s nnn hj
  case ldVxK x =>
    simp only [exec, execLdVxK] at h
    split at h <;> injection h with h <;> subst h
    · exact keyWait s x ‹_›
    · exact keyLoad s x ‹_›
  case storeRegs x =>
    injection h with h
    subst h
    rw [State.indexQuirk_off]
    exact store s x
  case loadRegs x =>
    injection h with h
    subst h
    rw [State.indexQuirk_off]
    exact load s x
  all_goals exact other _ s t h (by simp) (by simp) (by simp) (by simp) (by simp)

/-- The pixel under the sprite, in the words of `Covers` and of the blitter. -/
theorem spriteCovers_iff_covers (s : State) (x y : RegIx) (n : Nib) (px : Fin 64) (py : Fin 32) :
    spriteCovers (s.reg x).toNat (s.reg y).toNat (fun r => s.memRead (s.indexed r)) n.toNat px py = true ↔
      Covers s x y n px py := by
  have hn := n.isLt
  have hx := px.isLt
  have hy := py.isLt
  simp only [spriteCovers, rowBit, spriteBit, Bool.and_eq_true, decide_eq_true_eq, Covers]
  constructor
  · rintro ⟨h1, h2, h3⟩
    exact ⟨_, _, h1, h2, by omega, by omega, h3⟩
  · rintro ⟨r, c, h1, h2, h3, h4, h5⟩
    have e1 : (py.val + 32 - (s.reg y).toNat % 32) % 32 = r := by omega
    have e2 : (px.val + 64 - (s.reg x).toNat % 64) % 64 = c := by omega
    rw [e1, e2]
    exact ⟨h1, h2, h5⟩

end Sys2Proof.Machine
end

