-- ==== Sys2Proof/Laws/PerInstr.lean ====
section
/-! SUPPORT. The per-instruction law: the fixed bits of every instruction's word are those of its row of the opcode map
(spec/30_encoding.md R65, R72), and every instruction is well formed. -/

namespace Sys2Proof.Laws.FixedBits

/-- The word of `i` matches the row of `i`, and `i` is well formed. -/
def Statement (i : Instr) : Prop := matchesRowOf (encode i) i ∧ i.wellFormed = true

/-- Format XKK and NNN under the mask F000. -/
theorem packXKK_row (t : Nib) (x : RegIx) (kk : Byte) : packXKK t x kk &&& 0xF000#16 = packXKK t 0 0 := by
  have := x.isLt; have := kk.isLt
  apply BitVec.eq_of_toNat_eq
  rw [and_F000_toNat, packXKK_toNat, packXKK_toNat]
  have h4 : (0 : BitVec 4).toNat = 0 := rfl
  have h8 : (0 : BitVec 8).toNat = 0 := rfl
  have h12 : (0 : BitVec 12).toNat = 0 := rfl
  omega

theorem packNNN_row (t : Nib) (nnn : Addr12) : packNNN t nnn &&& 0xF000#16 = packNNN t 0 := by
  have := nnn.isLt
  apply BitVec.eq_of_toNat_eq
  rw [and_F000_toNat, packNNN_toNat, packNNN_toNat]
  have h4 : (0 : BitVec 4).toNat = 0 := rfl
  have h8 : (0 : BitVec 8).toNat = 0 := rfl
  have h12 : (0 : BitVec 12).toNat = 0 := rfl
  omega

/-- Format XYS under the mask F00F. -/
theorem packXYS_row (t : Nib) (x y : RegIx) (n : Nib) : packXYN t x y n &&& 0xF00F#16 = packXYN t 0 0 n := by
  have := x.isLt; have := y.isLt; have := n.isLt
  apply BitVec.eq_of_toNat_eq
  rw [and_F00F_toNat, packXYN_toNat, packXYN_toNat]
  have h4 : (0 : BitVec 4).toNat = 0 := rfl
  have h8 : (0 : BitVec 8).toNat = 0 := rfl
  have h12 : (0 : BitVec 12).toNat = 0 := rfl
  omega

/-- Format XYN under the mask F000. -/
theorem packXYN_row (t : Nib) (x y : RegIx) (n : Nib) : packXYN t x y n &&& 0xF000#16 = packXYN t 0 0 0 := by
  have := x.isLt; have := y.isLt; have := n.isLt
  apply BitVec.eq_of_toNat_eq
  rw [and_F000_toNat, packXYN_toNat, packXYN_toNat]
  have h4 : (0 : BitVec 4).toNat = 0 := rfl
  have h8 : (0 : BitVec 8).toNat = 0 := rfl
  have h12 : (0 : BitVec 12).toNat = 0 := rfl
  omega

/-- Format XS under the mask F0FF. -/
theorem packXS_row (t : Nib) (x : RegIx) (kk : Byte) : packXKK t x kk &&& 0xF0FF#16 = packXKK t 0 kk := by
  have := x.isLt; have := kk.isLt
  apply BitVec.eq_of_toNat_eq
  rw [and_F0FF_toNat, packXKK_toNat, packXKK_toNat]
  have h4 : (0 : BitVec 4).toNat = 0 := rfl
  have h8 : (0 : BitVec 8).toNat = 0 := rfl
  have h12 : (0 : BitVec 12).toNat = 0 := rfl
  omega

theorem cls : Statement .cls := ⟨rfl, rfl⟩
theorem ret : Statement .ret := ⟨rfl, rfl⟩
theorem jp (nnn : Addr12) : Statement (.jp nnn) := ⟨packNNN_row _ nnn, rfl⟩
theorem call (nnn : Addr12) : Statement (.call nnn) := ⟨packNNN_row _ nnn, rfl⟩
theorem seImm (x : RegIx) (kk : Byte) : Statement (.seImm x kk) := ⟨packXKK_row _ x kk, rfl⟩
theorem sneImm (x : RegIx) (kk : Byte) : Statement (.sneImm x kk) := ⟨packXKK_row _ x kk, rfl⟩
theorem seReg (x y : RegIx) : Statement (.seReg x y) := ⟨packXYS_row _ x y _, rfl⟩
theorem ldImm (x : RegIx) (kk : Byte) : Statement (.ldImm x kk) := ⟨packXKK_row _ x kk, rfl⟩
theorem addImm (x : RegIx) (kk : Byte) : Statement (.addImm x kk) := ⟨packXKK_row _ x kk, rfl⟩
theorem ldReg (x y : RegIx) : Statement (.ldReg x y) := ⟨packXYS_row _ x y _, rfl⟩
theorem orReg (x y : RegIx) : Statement (.orReg x y) := ⟨packXYS_row _ x y _, rfl⟩
theorem andReg (x y : RegIx) : Statement (.andReg x y) := ⟨packXYS_row _ x y _, rfl⟩
theorem xorReg (x y : RegIx) : Statement (.xorReg x y) := ⟨packXYS_row _ x y _, rfl⟩
theorem addReg (x y : RegIx) : Statement (.addReg x y) := ⟨packXYS_row _ x y _, rfl⟩
theorem sub (x y : RegIx) : Statement (.sub x y) := ⟨packXYS_row _ x y _, rfl⟩
theorem shr (x y : RegIx) : Statement (.shr x y) := ⟨packXYS_row _ x y _, rfl⟩
theorem subn (x y : RegIx) : Statement (.subn x y) := ⟨packXYS_row _ x y _, rfl⟩
theorem shl (x y : RegIx) : Statement (.shl x y) := ⟨packXYS_row _ x y _, rfl⟩
theorem sneReg (x y : RegIx) : Statement (.sneReg x y) := ⟨packXYS_row _ x y _, rfl⟩
theorem ldI (nnn : Addr12) : Statement (.ldI nnn) := ⟨packNNN_row _ nnn, rfl⟩
theorem jpV0 (nnn : Addr12) : Statement (.jpV0 nnn) := ⟨packNNN_row _ nnn, rfl⟩
theorem rnd (x : RegIx) (kk : Byte) : Statement (.rnd x kk) := ⟨packXKK_row _ x kk, rfl⟩
theorem drw (x y : RegIx) (n : Nib) : Statement (.drw x y n) := ⟨packXYN_row _ x y n, rfl⟩
theorem skp (x : RegIx) : Statement (.skp x) := ⟨packXS_row _ x _, rfl⟩
theorem sknp (x : RegIx) : Statement (.sknp x) := ⟨packXS_row _ x _, rfl⟩
theorem ldVxDt (x : RegIx) : Statement (.ldVxDt x) := ⟨packXS_row _ x _, rfl⟩
theorem ldVxK (x : RegIx) : Statement (.ldVxK x) := ⟨packXS_row _ x _, rfl⟩
theorem ldDtVx (x : RegIx) : Statement (.ldDtVx x) := ⟨packXS_row _ x _, rfl⟩
theorem ldStVx (x : RegIx) : Statement (.ldStVx x) := ⟨packXS_row _ x _, rfl⟩
theorem addI (x : RegIx) : Statement (.addI x) := ⟨packXS_row _ x _, rfl⟩
theorem ldF (x : RegIx) : Statement (.ldF x) := ⟨packXS_row _ x _, rfl⟩
theorem ldB (x : RegIx) : Statement (.ldB x) := ⟨packXS_row _ x _, rfl⟩
theorem storeRegs (x : RegIx) : Statement (.storeRegs x) := ⟨packXS_row _ x _, rfl⟩
theorem loadRegs (x : RegIx) : Statement (.loadRegs x) := ⟨packXS_row _ x _, rfl⟩

end Sys2Proof.Laws.FixedBits
end

