-- ==== Sys2Proof/Tests/Slice0.lean ====
section
/-! SUPPORT. Small tests on fixed values, each expected value from spec/ (most from spec/95_test_vectors.md, whose vector
a comment names), and a witness for the hypotheses of every statement that has some. -/

namespace Sys2Proof.Tests

open Sys2Proof Sys2Proof.Machine

/-! Helpers -/

/-- The machine after reset with the word `w` at PC. -/
def at0 (w : Nat) : State := State.reset.withFetchWord 16 w

/-- `s` with registers set. -/
def withRegs (s : State) : List (RegIx × Byte) → State
  | [] => s
  | (x, b) :: r => withRegs (s.setReg x b) r

/-- `s` with bytes of memory set. -/
def withMem (s : State) : List (Nat × Byte) → State
  | [] => s
  | (a, b) :: r => withMem (s.memWrite a b) r

/-- `s` with `n` entries on the stack, each 0x0202. -/
def withStack (s : State) (n : Fin 17) : State := { s with sp := n, stack := Vector.replicate 16 0x0202#16 }

/-- `step` answers a next state that satisfies `p`. -/
def after (s : State) (p : State → Bool) : Bool :=
  match step s with
  | .next t => p t
  | .fault _ => false
  | .refused _ => false

/-- No output but the idle ones. -/
def quiet (t : State) : Bool := decide (t.out = ⟨false, .none, 0, false⟩)

/-! Decoding: every constructor from a word of the spec's encoding of it (spec/30_encoding.md R65), the first of each
group from spec/95_test_vectors.md. -/

theorem test_decode_cls : decode 0x00E0#16 = .instr .cls := by decide
theorem test_decode_ret : decode 0x00EE#16 = .instr .ret := by decide
theorem test_decode_jp : decode 0x1ABC#16 = .instr (.jp 0xABC#12) := by decide
theorem test_decode_call : decode 0x220A#16 = .instr (.call 0x20A#12) := by decide
theorem test_decode_seImm : decode 0x3AFF#16 = .instr (.seImm 0xA#4 0xFF#8) := by decide
theorem test_decode_sneImm : decode 0x4A01#16 = .instr (.sneImm 0xA#4 0x01#8) := by decide
theorem test_decode_seReg : decode 0x5120#16 = .instr (.seReg 0x1#4 0x2#4) := by decide
theorem test_decode_ldImm : decode 0x6A42#16 = .instr (.ldImm 0xA#4 0x42#8) := by decide
theorem test_decode_addImm : decode 0x71FF#16 = .instr (.addImm 0x1#4 0xFF#8) := by decide
theorem test_decode_ldReg : decode 0x8EF0#16 = .instr (.ldReg 0xE#4 0xF#4) := by decide
theorem test_decode_orReg : decode 0x8121#16 = .instr (.orReg 0x1#4 0x2#4) := by decide
theorem test_decode_andReg : decode 0x8122#16 = .instr (.andReg 0x1#4 0x2#4) := by decide
theorem test_decode_xorReg : decode 0x8123#16 = .instr (.xorReg 0x1#4 0x2#4) := by decide
theorem test_decode_addReg : decode 0x8AB4#16 = .instr (.addReg 0xA#4 0xB#4) := by decide
theorem test_decode_sub : decode 0x8125#16 = .instr (.sub 0x1#4 0x2#4) := by decide
theorem test_decode_shr : decode 0x8306#16 = .instr (.shr 0x3#4 0x0#4) := by decide
theorem test_decode_subn : decode 0x8127#16 = .instr (.subn 0x1#4 0x2#4) := by decide
theorem test_decode_shl : decode 0x801E#16 = .instr (.shl 0x0#4 0x1#4) := by decide
theorem test_decode_sneReg : decode 0x9AB0#16 = .instr (.sneReg 0xA#4 0xB#4) := by decide
theorem test_decode_ldI : decode 0xA2F0#16 = .instr (.ldI 0x2F0#12) := by decide
theorem test_decode_jpV0 : decode 0xB210#16 = .instr (.jpV0 0x210#12) := by decide
theorem test_decode_rnd : decode 0xC30F#16 = .instr (.rnd 0x3#4 0x0F#8) := by decide
theorem test_decode_drw : decode 0xD125#16 = .instr (.drw 0x1#4 0x2#4 0x5#4) := by decide
theorem test_decode_skp : decode 0xE29E#16 = .instr (.skp 0x2#4) := by decide
theorem test_decode_sknp : decode 0xE2A1#16 = .instr (.sknp 0x2#4) := by decide
theorem test_decode_ldVxDt : decode 0xF507#16 = .instr (.ldVxDt 0x5#4) := by decide
theorem test_decode_ldVxK : decode 0xF30A#16 = .instr (.ldVxK 0x3#4) := by decide
theorem test_decode_ldDtVx : decode 0xF515#16 = .instr (.ldDtVx 0x5#4) := by decide
theorem test_decode_ldStVx : decode 0xF518#16 = .instr (.ldStVx 0x5#4) := by decide
theorem test_decode_addI : decode 0xF21E#16 = .instr (.addI 0x2#4) := by decide
theorem test_decode_ldF : decode 0xF429#16 = .instr (.ldF 0x4#4) := by decide
theorem test_decode_ldB : decode 0xF533#16 = .instr (.ldB 0x5#4) := by decide
theorem test_decode_storeRegs : decode 0xF255#16 = .instr (.storeRegs 0x2#4) := by decide
theorem test_decode_loadRegs : decode 0xF265#16 = .instr (.loadRegs 0x2#4) := by decide

/-- The unknown words F10 to F19 of spec/95_test_vectors.md. -/
theorem test_decode_unknown :
    [0x0000#16, 0x0123#16, 0x00FF#16, 0x5121#16, 0x9AB1#16, 0x8128#16, 0x812F#16, 0xE19F#16, 0xF0FF#16, 0xF075#16].all
      (fun w => decide (decode w = .unknown w)) = true := by decide

/-- spec/30_encoding.md R74: `SHR V3` assembles to 0x8306; the other words are those of programs P1 to P3. -/
theorem test_encode : encode (.shr 0x3#4 0x0#4) = 0x8306#16 ∧ encode (.jp 0x20C#12) = 0x120C#16 ∧
    encode (.ldB 0x0#4) = 0xF033#16 ∧ encode (.drw 0x1#4 0x2#4 0x5#4) = 0xD125#16 ∧
    encodeBytes (.ldI 0x300#12) = (0xA3#8, 0x00#8) := by decide

/-- The rows of spec/opcode_table.json, mask and match, in its order. -/
theorem test_opcode_map : opcodeMap.map opcodeRow =
    [(0xFFFF#16, 0x00E0#16), (0xFFFF#16, 0x00EE#16), (0xF000#16, 0x1000#16), (0xF000#16, 0x2000#16),
      (0xF000#16, 0x3000#16), (0xF000#16, 0x4000#16), (0xF00F#16, 0x5000#16), (0xF000#16, 0x6000#16),
      (0xF000#16, 0x7000#16), (0xF00F#16, 0x8000#16), (0xF00F#16, 0x8001#16), (0xF00F#16, 0x8002#16)] ++
    [(0xF00F#16, 0x8003#16), (0xF00F#16, 0x8004#16), (0xF00F#16, 0x8005#16), (0xF00F#16, 0x8006#16),
      (0xF00F#16, 0x8007#16), (0xF00F#16, 0x800E#16), (0xF00F#16, 0x9000#16), (0xF000#16, 0xA000#16),
      (0xF000#16, 0xB000#16), (0xF000#16, 0xC000#16), (0xF000#16, 0xD000#16)] ++
    [(0xF0FF#16, 0xE09E#16), (0xF0FF#16, 0xE0A1#16), (0xF0FF#16, 0xF007#16), (0xF0FF#16, 0xF00A#16),
      (0xF0FF#16, 0xF015#16), (0xF0FF#16, 0xF018#16), (0xF0FF#16, 0xF01E#16), (0xF0FF#16, 0xF029#16),
      (0xF0FF#16, 0xF033#16), (0xF0FF#16, 0xF055#16), (0xF0FF#16, 0xF065#16)] := by decide

/-- The host's numbering: the whole opcode is the first word; bits above `nbits` are zero. -/
theorem test_decodeTableWord : decodeTableWord 16 0x8AB4 = some (.addReg 0xA#4 0xB#4) ∧
    decodeTableWord 16 0xD125 = some (.drw 0x1#4 0x2#4 0x5#4) ∧ decodeTableWord 16 0x5121 = none := by decide

/-! WellFormed: no term of `Instr` is ill formed (spec/30_encoding.md R61: every value of every field is legal), so the
check refuses none; what is ill formed is a word, and the decoder refuses it (`test_decode_unknown`). -/

theorem test_wellFormed_smoke : (opcodeMap ++ [Instr.ldImm 0xF#4 0xFF#8, Instr.drw 0xF#4 0xF#4 0x0#4, Instr.shl 0x3#4 0xF#4]).all
    Instr.wellFormed = true := by decide

theorem test_wellFormed_refusedWord : decode 0x8AB8#16 = .unknown 0x8AB8#16 ∧ decodeTableWord 16 0x8AB8 = none := by
  decide

/-! Control transfer (spec/95_test_vectors.md family B and S9) -/

/-- B4, B5. -/
theorem test_ret : after (withStack (at0 0x00EE) 1)
      (fun t => t.pc == 0x0202 && t.sp == 0 && t.entry 0 == 0x0202 && quiet t) = true ∧
    after (at0 0x00EE) (fun t => t.pc == 0x0202 && t.sp == 0 && t.out == ⟨false, .stackUnderflow, 0x00EE, false⟩) = true :=
  by decide

/-- B1. -/
theorem test_jp : after (at0 0x1ABC) (fun t => t.pc == 0x0ABC && quiet t) = true := by decide

/-- B3, B6. -/
theorem test_call : after (at0 0x2300) (fun t => t.pc == 0x0300 && t.sp == 1 && t.entry 0 == 0x0202 && quiet t) = true ∧
    after (withStack (at0 0x2300) 16)
      (fun t => t.pc == 0x0202 && t.sp == 16 && t.out == ⟨false, .stackOverflow, 0x2300, false⟩) = true := by decide

/-- B7: the pushed address is not masked. -/
theorem test_call_top : after (({ State.reset with pc := 0x0FFE } : State).withFetchWord 16 0x2300)
    (fun t => t.pc == 0x0300 && t.entry 0 == 0x1000) = true := by decide

/-- S9.3, S9.4. -/
theorem test_seImm : after (withRegs (at0 0x3AFF) [(0xA, 0xFF)]) (fun t => t.pc == 0x0204) = true ∧
    after (withRegs (at0 0x3AFF) [(0xA, 0xFE)]) (fun t => t.pc == 0x0202) = true := by decide

/-- B10: the skip wraps at 16 bits. -/
theorem test_seImm_wraps : after (({ State.reset with pc := 0xFFFE } : State).withFetchWord 16 0x3000)
    (fun t => t.pc == 0x0002) = true := by decide

/-- S9.5, S9.6. -/
theorem test_sneImm : after (withRegs (at0 0x4A00) [(0xA, 0x00)]) (fun t => t.pc == 0x0202) = true ∧
    after (withRegs (at0 0x4A00) [(0xA, 0x01)]) (fun t => t.pc == 0x0204) = true := by decide

/-- S9.9, S9.10. -/
theorem test_seReg : after (withRegs (at0 0x5AB0) [(0xA, 0x7F), (0xB, 0x7F)]) (fun t => t.pc == 0x0204) = true ∧
    after (withRegs (at0 0x5AB0) [(0xA, 0x7F), (0xB, 0x80)]) (fun t => t.pc == 0x0202) = true := by decide

/-- S9.11, S9.12. -/
theorem test_sneReg : after (withRegs (at0 0x9AB0) [(0xA, 0x7F), (0xB, 0x80)]) (fun t => t.pc == 0x0204) = true ∧
    after (withRegs (at0 0x9AB0) [(0xA, 0x7F), (0xB, 0x7F)]) (fun t => t.pc == 0x0202) = true := by decide

/-- B8, B9. -/
theorem test_jpV0 : after (withRegs (at0 0xB210) [(0, 0x04)]) (fun t => t.pc == 0x0214) = true ∧
    after (withRegs (at0 0xBFFF) [(0, 0xFF)]) (fun t => t.pc == 0x10FE) = true := by decide

/-! Load, arithmetic, logic (family A) -/

/-- A1, A2. -/
theorem test_ldImm : after (withRegs (at0 0x6A42) [(0xA, 0x99)]) (fun t => t.reg 0xA == 0x42 && t.pc == 0x0202) = true ∧
    after (at0 0x6F07) (fun t => t.reg 0xF == 0x07) = true := by decide

/-- A4, A10. -/
theorem test_addImm : after (withRegs (at0 0x70FF) [(0, 0x01), (0xF, 0x01)])
      (fun t => t.reg 0 == 0x00 && t.reg 0xF == 0x01) = true ∧
    after (withRegs (at0 0x7F05) [(0xF, 0xFE)]) (fun t => t.reg 0xF == 0x03) = true := by decide

/-- A6. -/
theorem test_ldReg : after (withRegs (at0 0x8010) [(0, 0x11), (1, 0x22)])
    (fun t => t.reg 0 == 0x22 && t.reg 1 == 0x22) = true := by decide

/-- A7, A12. -/
theorem test_orReg : after (withRegs (at0 0x8011) [(0, 0x5A), (1, 0x0F)]) (fun t => t.reg 0 == 0x5F) = true ∧
    after (withRegs (at0 0x8FF1) [(0xF, 0x80)]) (fun t => t.reg 0xF == 0x80) = true := by decide

/-- A8. -/
theorem test_andReg : after (withRegs (at0 0x8012) [(0, 0x5A), (1, 0x0F)]) (fun t => t.reg 0 == 0x0A) = true := by decide

/-- A9. -/
theorem test_xorReg : after (withRegs (at0 0x8013) [(0, 0x5A), (1, 0x0F)]) (fun t => t.reg 0 == 0x55) = true := by decide

/-- A21, A22. -/
theorem test_addReg : after (withRegs (at0 0x8014) [(0, 0x80), (1, 0x7F)])
      (fun t => t.reg 0 == 0xFF && t.reg 0xF == 0) = true ∧
    after (withRegs (at0 0x8014) [(0, 0x80), (1, 0x80)]) (fun t => t.reg 0 == 0 && t.reg 0xF == 1) = true := by decide

/-- A50, A52: the flag is written last and the old `VF` is the operand. -/
theorem test_addReg_vf : after (withRegs (at0 0x8F14) [(0xF, 0xF0), (1, 0x20)]) (fun t => t.reg 0xF == 1) = true ∧
    after (withRegs (at0 0x80F4) [(0, 0xFF), (0xF, 0x01)]) (fun t => t.reg 0 == 0 && t.reg 0xF == 1) = true := by decide

/-- A31, A32. -/
theorem test_sub : after (withRegs (at0 0x8015) [(0, 0x05), (1, 0x07)])
      (fun t => t.reg 0 == 0xFE && t.reg 0xF == 0) = true ∧
    after (withRegs (at0 0x8015) [(0, 0x07), (1, 0x07)]) (fun t => t.reg 0 == 0 && t.reg 0xF == 1) = true := by decide

/-- A30, A33. -/
theorem test_subn : after (withRegs (at0 0x8017) [(0, 0x07), (1, 0x05)])
      (fun t => t.reg 0 == 0xFE && t.reg 0xF == 0) = true ∧
    after (withRegs (at0 0x8017) [(0, 0x00), (1, 0x01)]) (fun t => t.reg 0 == 1 && t.reg 0xF == 1) = true := by decide

/-- A43, with `Vy` = AA ignored; A55. -/
theorem test_shr : after (withRegs (at0 0x8016) [(0, 0x81), (1, 0xAA)])
      (fun t => t.reg 0 == 0x40 && t.reg 1 == 0xAA && t.reg 0xF == 1) = true ∧
    after (withRegs (at0 0x8F06) [(0xF, 0x03)]) (fun t => t.reg 0xF == 1) = true := by decide

/-- A45, with `Vy` = AA ignored; A42. -/
theorem test_shl : after (withRegs (at0 0x801E) [(0, 0x55), (1, 0xAA)])
      (fun t => t.reg 0 == 0xAA && t.reg 1 == 0xAA && t.reg 0xF == 0) = true ∧
    after (withRegs (at0 0x801E) [(0, 0x80), (1, 0xAA)]) (fun t => t.reg 0 == 0x00 && t.reg 0xF == 1) = true := by decide

/-- A61: mask 00 gives 00 whatever the random byte. -/
theorem test_rnd : ∃ t, step (at0 0xC300) = .next t ∧ t.pc = 0x0202#16 ∧ t.reg 3 = 0 :=
  ⟨_, rfl, rfl, show Config.rnd 0 &&& 0x00#8 = 0 from BitVec.and_zero⟩

/-! Index and memory (family C) -/

/-- C1. -/
theorem test_ldI : after ((at0 0xA123).setI 0x0FFF) (fun t => t.i == 0x0123 && t.pc == 0x0202) = true := by decide

/-- C3, C4. -/
theorem test_addI : after (withRegs ((at0 0xF01E).setI 0x0FF0) [(0, 0x0F)])
      (fun t => t.i == 0x0FFF && t.reg 0xF == 0) = true ∧
    after (withRegs ((at0 0xF01E).setI 0x0FF0) [(0, 0x10)]) (fun t => t.i == 0 && t.reg 0xF == 1) = true := by decide

/-- C8. -/
theorem test_addI_vf : after (withRegs ((at0 0xFF1E).setI 0x0FFE) [(0xF, 0x02)])
    (fun t => t.i == 0 && t.reg 0xF == 1) = true := by decide

/-- C11, C13. -/
theorem test_ldF : after (withRegs (at0 0xF029) [(0, 0x0F)]) (fun t => t.i == 0x009B) = true ∧
    after (withRegs (at0 0xF029) [(0, 0xFF)]) (fun t => t.i == 0x054B) = true := by decide

/-- C25, C27. -/
theorem test_ldB : after (withRegs ((at0 0xF033).setI 0x0300) [(0, 156)])
      (fun t => t.memRead 0x300 == 1 && t.memRead 0x301 == 5 && t.memRead 0x302 == 6 && t.i == 0x0300) = true ∧
    after (withRegs ((at0 0xF033).setI 0x0FFE) [(0, 254)])
      (fun t => t.memRead 0xFFE == 2 && t.memRead 0xFFF == 5 && t.memRead 0 == 4) = true := by decide

/-- C31. -/
theorem test_storeRegs : after (withRegs ((at0 0xF355).setI 0x0FFE) [(0, 0xA0), (1, 0xA1), (2, 0xA2), (3, 0xA3)])
    (fun t => t.memRead 0xFFE == 0xA0 && t.memRead 0xFFF == 0xA1 && t.memRead 0 == 0xA2 && t.memRead 1 == 0xA3 &&
      t.memRead 2 == 0 && t.i == 0x0FFE) = true := by decide

/-- C32. -/
theorem test_storeRegs_all : after (withRegs ((at0 0xFF55).setI 0x0400) [(1, 0x11), (0xE, 0xEE), (0xF, 0xFF)])
    (fun t => t.memRead 0x400 == 0 && t.memRead 0x401 == 0x11 && t.memRead 0x40E == 0xEE && t.memRead 0x40F == 0xFF) =
      true := by decide

/-- C33. -/
theorem test_loadRegs : after (withMem (withRegs ((at0 0xF165).setI 0x0300) [(2, 0x77)])
      [(0x300, 0x01), (0x301, 0x02), (0x302, 0x03)])
    (fun t => t.reg 0 == 1 && t.reg 1 == 2 && t.reg 2 == 0x77 && t.i == 0x0300) = true := by decide

/-- C34. -/
theorem test_loadRegs_font : after ((at0 0xFF65).setI 0x0050)
    (fun t => t.reg 0 == 0xF0 && t.reg 5 == 0x20 && t.reg 9 == 0x70 && t.reg 0xC == 0xF0 && t.reg 0xF == 0xF0) = true := by
  decide

/-! Display (family D) -/

/-- D1: pixels 5 and 2047 were on. -/
theorem test_cls : after { at0 0x00E0 with fb := Screen.flip (Screen.flip Screen.blank 5 0) 63 31 }
    (fun t => t.fb == Screen.blank && t.redraw && t.reg 0xF == 0) = true := by decide

/-- D5: the sprite wraps in both directions, pixel by pixel. -/
theorem test_drw_wraps : after (withMem (withRegs ((at0 0xD013).setI 0x0300) [(0, 62), (1, 30)])
      [(0x300, 0xFF), (0x301, 0x81), (0x302, 0xC0)])
    (fun t => t.pixel 62 30 && t.pixel 0 30 && t.pixel 5 30 && !t.pixel 6 30 && t.pixel 62 31 && t.pixel 5 31 &&
      !t.pixel 63 31 && t.pixel 62 0 && t.pixel 63 0 && !t.pixel 0 0 && t.reg 0xF == 0 && t.redraw) = true := by decide

/-- D7: an on-pixel is turned off. -/
theorem test_drw_collision : after { withMem ((at0 0xD011).setI 0x0300) [(0x300, 0xC0)] with
      fb := Screen.flip Screen.blank 1 0 }
    (fun t => t.pixel 0 0 && !t.pixel 1 0 && t.reg 0xF == 1) = true := by decide

/-- D4: the pixel (5, 3) is entry 197 of the framebuffer the host reads. -/
theorem test_hostFramebuffer : ({ State.reset with fb := Screen.flip Screen.blank 5 3 } : State).hostFramebuffer[197]? =
    some true := by
  simp only [State.hostFramebuffer, List.getElem?_map, List.getElem?_range (show 197 < 2048 by decide), Option.map_some]
  decide

/-! Keypad and timers (family E) -/

/-- E1, E5. -/
theorem test_skp : after (withRegs { at0 0xE29E with key := 0x0020 } [(2, 0x05)]) (fun t => t.pc == 0x0204) = true ∧
    after (withRegs { at0 0xE29E with key := 0x0020 } [(2, 0x15)]) (fun t => t.pc == 0x0204) = true := by decide

/-- E3, E6. -/
theorem test_sknp : after (withRegs (at0 0xE2A1) [(2, 0x05)]) (fun t => t.pc == 0x0204) = true ∧
    after (withRegs { at0 0xE2A1 with key := 0x0020 } [(2, 0x15)]) (fun t => t.pc == 0x0202) = true := by decide

/-- E7: a wait step; program P5: key B alone is pressed. -/
theorem test_ldVxK : after { at0 0xF30A with dt := 9, st := 9 }
      (fun t => t.pc == 0x0200 && t.dt == 9 && t.st == 9 && t.out == ⟨false, .none, 0, true⟩) = true ∧
    after { at0 0xF30A with key := 0x0800, dt := 9 } (fun t => t.reg 3 == 0x0B && t.pc == 0x0202 && t.dt == 8) = true := by
  decide

/-- E10. -/
theorem test_ldVxDt : after { at0 0xF507 with dt := 0x0A } (fun t => t.reg 5 == 0x0A && t.dt == 0x09) = true := by decide

/-- E12, E13. -/
theorem test_ldDtVx : after (withRegs (at0 0xF015) [(0, 0xFF)]) (fun t => t.dt == 0xFE) = true ∧
    after { at0 0xF015 with dt := 0x30 } (fun t => t.dt == 0) = true := by decide

/-- E15, E16. -/
theorem test_ldStVx : after (withRegs (at0 0xF018) [(0, 0x01)]) (fun t => t.st == 0 && t.out.beep) = true ∧
    after { at0 0xF018 with st := 5 } (fun t => t.st == 0 && quiet t) = true := by decide

/-- E20, E21: the tick on another instruction. -/
theorem test_tick : after { at0 0x6000 with dt := 1, st := 1 } (fun t => t.dt == 0 && t.st == 0 && t.out.beep) = true ∧
    after { at0 0x6000 with dt := 0xFF, st := 2 } (fun t => t.dt == 0xFE && t.st == 1 && quiet t) = true := by decide

/-! Fetch and unknown opcodes (family F) -/

/-- F1, F2: an odd PC; a fetch across the top of memory. -/
theorem test_fetch : after (withMem { State.reset with pc := 0x0201 } [(0x201, 0x61), (0x202, 0x07)])
      (fun t => t.reg 1 == 0x07 && t.pc == 0x0203) = true ∧
    after (withMem { State.reset with pc := 0x0FFF } [(0xFFF, 0x6A), (0x000, 0x42)])
      (fun t => t.reg 0xA == 0x42 && t.pc == 0x1001) = true := by decide

/-- F3, F4: PC above FFF, and the byte order. -/
theorem test_fetch_high : after (withMem { State.reset with pc := 0xFFFE } [(0xFFE, 0x6A), (0xFFF, 0x42)])
      (fun t => t.reg 0xA == 0x42 && t.pc == 0x0000) = true ∧
    after (withMem State.reset [(0x200, 0x12), (0x201, 0x34)]) (fun t => t.pc == 0x0234) = true := by decide

/-- F13: reported with a sound edge in the same step, and skipped. -/
theorem test_unknown : after { at0 0x5121 with dt := 5, st := 1 }
    (fun t => t.pc == 0x0202 && t.dt == 4 && t.st == 0 && t.out == ⟨true, .unknownOpcode, 0x5121, false⟩) = true := by
  decide

/-! Host operations (family G) -/

/-- G1. -/
theorem test_hostReset : ({ at0 0x1200 with pc := 7, key := 3, redraw := true, out := ⟨true, .none, 0, true⟩ } :
    State).hostReset = State.reset := by decide

/-- G5: the second load overwrites only its own length. -/
theorem test_loadProgram : ((State.reset.hostOp (.loadProgram [0x60, 0x01, 0x70, 0x01])).hostOp
      (.loadProgram [0x12, 0x00])).mem = [(0x200, 0x12), (0x202, 0x70), (0x203, 0x01)] := by decide

/-- G6, G7. -/
theorem test_keyWrite_redrawClear : (State.reset.keyWrite 5 true).key = 0x0020 ∧
    ((State.reset.keyWrite 5 true).keyWrite 5 false).key = 0 ∧
    ({ State.reset with redraw := true } : State).redrawClear.redraw = false := by decide

/-- spec/10_state.md R29: glyph 7 is at 0x073. -/
theorem test_font : (List.range 5).map (fun k => State.reset.memRead (0x073 + k)) = [0xF0, 0x10, 0x20, 0x40, 0x40] := by
  decide

/-- spec/00_scope.md R6: the font table is an argument of the model: another one is read back, by Fx65 too, and survives
the host's reset. -/
theorem test_font_parameter : (State.resetWith (Vector.replicate 80 0xAA)).memRead 0x09F = 0xAA ∧
    after (((State.resetWith (Vector.replicate 80 0xAA)).withFetchWord 16 0xF065).setI 0x0050) (fun t => t.reg 0 == 0xAA) =
      true ∧
    (State.resetWith (Vector.replicate 80 0xAA)).hostReset.memRead 0x050 = 0xAA := by decide

/-! Witnesses: for every statement that has hypotheses, values that meet all of them together; for a statement of several
clauses, values for each, at the boundaries. A statement about `step s = .next t` alone is met in every state; its witness
is one such step for each clause. -/

theorem witness_EncodeOfDecode : decode 0xD125#16 = .instr (.drw 0x1#4 0x2#4 0x5#4) := by decide

theorem witness_DecodeFollowsOpcodeMap : matchesRowOf 0x8AB4#16 (.addReg 0x0#4 0x0#4) ∧ matchesRowOf 0xF21E#16 (.addI 0x0#4) :=
  ⟨rfl, rfl⟩

/-- No row matches the word of zeroed memory. -/
theorem no_row_matches_zero : ∀ i : Instr, ¬ matchesRowOf 0x0000#16 i := by
  intro i
  unfold matchesRowOf
  cases i <;> (simp only [opcodeRow]; decide)

theorem opAt_reset : opAt State.reset = 0x0000#16 := by decide

/-- Low nibbles at both ends of the clause for unknown words, and each secondary byte. -/
theorem witness_NestedGroupsDecode : (0x8#4 ∈ [0x8#4, 0x9#4, 0xA#4, 0xB#4, 0xC#4, 0xD#4, 0xF#4]) ∧
    (0xF#4 ∈ [0x8#4, 0x9#4, 0xA#4, 0xB#4, 0xC#4, 0xD#4, 0xF#4]) ∧ 0x9F#8 ∉ [0x9E#8, 0xA1#8] ∧
    0x00#8 ∉ [0x07#8, 0x0A#8, 0x15#8, 0x18#8, 0x1E#8, 0x29#8, 0x33#8, 0x55#8, 0x65#8] := by decide

theorem witness_StepRunsFetchedInstruction : decode (opAt (at0 0x8AB4)) = .instr (.addReg 0xA#4 0xB#4) := by decide

theorem witness_UnknownOpcodeIsReportedAndSkipped : ∀ i : Instr, ¬ matchesRowOf (opAt State.reset) i := by
  rw [opAt_reset]
  exact no_row_matches_zero

theorem witness_StepKeepsInvariant : Inv State.reset ∧ (at0 0xF055).memWf = true ∧
    (∃ t, step State.reset = .next t) ∧ ∃ t, step (at0 0xF055) = .next t :=
  ⟨⟨rfl, by decide⟩, by decide, ⟨_, rfl⟩, ⟨_, rfl⟩⟩

/-- A state that meets the invariant, for a host operation; a state reached by a host operation and a step. -/
theorem witness_ReachableStatesMeetInvariant : Inv (State.reset.setI 0x0FFF) ∧ ∃ t, step (State.reset.hostOp (.loadProgram [0xA1, 0x23])) = .next t ∧
    t.i = 0x0123#16 ∧ Reachable t :=
  ⟨⟨rfl, by decide⟩, _, rfl, rfl, .step (.host (.reset fontTable) (.loadProgram [0xA1, 0x23])) rfl⟩

theorem witness_FlagInstructionsLeaveVFZeroOrOne : [Instr.addReg 1 2, .sub 0xF 2, .shr 1 0xF, .subn 1 2, .shl 0xF 0,
    .drw 1 2 0, .addI 0xF].all writesFlag = true := by decide

/-- A register that is no destination, beside an instruction that writes the flag; and `VF` beside one that does not. -/
theorem witness_RegistersChangeOnlyAsDestinationOrFlag :
    (∃ t, exec (.addReg 1 2) State.reset = .next t) ∧ (2#4 ∉ destinations (.addReg 1 2) ∧ (2#4 : RegIx) ≠ 0xF#4) ∧
    (∃ t, exec (.loadRegs 0xE) State.reset = .next t) ∧ (0xF#4 ∉ destinations (.loadRegs 0xE)) ∧
    writesFlag (.loadRegs 0xE) = false :=
  ⟨⟨_, rfl⟩, by decide, ⟨_, rfl⟩, by decide, rfl⟩

/-- Each clause: a written delay timer, a written sound timer, a read delay timer, a reported step. -/
theorem witness_CompletedStepsTickTimers :
    (∃ t, step (at0 0xF015) = .next t ∧ t.out.stalled = false) ∧ (∃ t, step (at0 0xF018) = .next t ∧ t.out.stalled = false) ∧
    (∃ t, step (at0 0xF507) = .next t ∧ t.out.stalled = false) ∧ decode (opAt (at0 0xF507)) = .instr (.ldVxDt 0x5#4) ∧
    ∃ t, step State.reset = .next t ∧ t.out.stalled = false :=
  ⟨⟨_, rfl, rfl⟩, ⟨_, rfl, rfl⟩, ⟨_, rfl, rfl⟩, by decide, ⟨_, rfl, rfl⟩⟩

theorem witness_WaitStepChangesNothing : decode (opAt (at0 0xF30A)) = .instr (.ldVxK 0x3#4) ∧ (at0 0xF30A).key = 0 := by
  decide

theorem witness_StalledExactlyOnWaitSteps : (∃ t, step (at0 0xF30A) = .next t ∧ t.out.stalled = true) ∧
    ∃ t, step { at0 0xF30A with key := 0x8000 } = .next t ∧ t.out.stalled = false :=
  ⟨⟨_, rfl, rfl⟩, ⟨_, rfl, rfl⟩⟩

/-- Each diagnostic, and none just beside the two stack bounds. -/
theorem witness_DiagnosticsExactlyWhenRaised : (∃ t, step State.reset = .next t ∧ t.out.diag = .unknownOpcode) ∧
    (∃ t, step (withStack (at0 0x2300) 16) = .next t ∧ t.out.diag = .stackOverflow) ∧
    (∃ t, step (withStack (at0 0x2300) 15) = .next t ∧ t.out.diag = .none) ∧
    (∃ t, step (withStack (at0 0x00EE) 0) = .next t ∧ t.out.diag = .stackUnderflow) ∧
    ∃ t, step (withStack (at0 0x00EE) 1) = .next t ∧ t.out.diag = .none :=
  ⟨⟨_, rfl, rfl⟩, ⟨_, rfl, rfl⟩, ⟨_, rfl, rfl⟩, ⟨_, rfl, rfl⟩, ⟨_, rfl, rfl⟩⟩

theorem witness_DiagnosticStepOnlyAdvances : ∃ t, step State.reset = .next t ∧ t.out.diag ≠ .none :=
  ⟨_, rfl, by decide⟩

theorem witness_OnlyClearAndDrawTouchScreen : (∃ t, step (at0 0x00E0) = .next t) ∧ decode (opAt (at0 0x00E0)) = .instr .cls ∧
    (∃ t, step (at0 0xD120) = .next t) ∧ decode (opAt (at0 0xD120)) = .instr (.drw 1 2 0) ∧
    (∃ t, step (at0 0x6000) = .next t) ∧ decode (opAt (at0 0x6000)) = .instr (.ldImm 0 0) :=
  ⟨⟨_, rfl⟩, by decide, ⟨_, rfl⟩, by decide, ⟨_, rfl⟩, by decide⟩

theorem witness_OnlyStoresWriteMemory : (∃ t, step (at0 0xF365) = .next t) ∧
    (∀ x, decode (opAt (at0 0xF365)) ≠ .instr (.ldB x)) ∧ ∀ x, decode (opAt (at0 0xF365)) ≠ .instr (.storeRegs x) := by
  have h : decode (opAt (at0 0xF365)) = .instr (.loadRegs 0x3#4) := by decide
  exact ⟨⟨_, rfl⟩, by simp [h], by simp [h]⟩

theorem witness_OnlyCallAndReturnTouchStack : (∃ t, step (at0 0x1300) = .next t) ∧
    (∀ nnn, decode (opAt (at0 0x1300)) ≠ .instr (.call nnn)) ∧ decode (opAt (at0 0x1300)) ≠ .instr .ret ∧
    (∃ t, step (at0 0x2300) = .next t) ∧ (15 : Fin 16).val ≠ (at0 0x2300).sp.val := by
  have h : decode (opAt (at0 0x1300)) = .instr (.jp 0x300#12) := by decide
  exact ⟨⟨_, rfl⟩, by simp [h], by simp [h], ⟨_, rfl⟩, by decide⟩

theorem witness_StepsReadInputsOnly : (∃ t, step (at0 0x6000) = .next t) ∧
    ∀ x kk, decode (opAt (at0 0x6000)) ≠ .instr (.rnd x kk) := by
  have h : decode (opAt (at0 0x6000)) = .instr (.ldImm 0x0#4 0x00#8) := by decide
  exact ⟨⟨_, rfl⟩, by simp [h]⟩

theorem witness_NextPcByClass : (∃ t, step (at0 0x1ABC) = .next t ∧ t.pc = 0x0ABC#16) ∧
    ∃ t, step State.reset = .next t ∧ t.pc = 0x0202#16 :=
  ⟨⟨_, rfl, rfl⟩, ⟨_, rfl, rfl⟩⟩

theorem witness_OnlyIndexInstructionsWriteI : (∃ t, step (at0 0xF355) = .next t) ∧
    (∀ nnn, decode (opAt (at0 0xF355)) ≠ .instr (.ldI nnn)) ∧ (∀ x, decode (opAt (at0 0xF355)) ≠ .instr (.addI x)) ∧
    ∀ x, decode (opAt (at0 0xF355)) ≠ .instr (.ldF x) := by
  have h : decode (opAt (at0 0xF355)) = .instr (.storeRegs 0x3#4) := by decide
  exact ⟨⟨_, rfl⟩, by simp [h], by simp [h], by simp [h]⟩

theorem witness_RedrawAndSoundTimerAreUnreadable : ∃ t, step (at0 0xF507) = .next t := ⟨_, rfl⟩

/-- A pop of the lowest entry, of the highest, and of none. -/
theorem witness_ReturnPopsOrReports : (withStack State.reset 1).sp.val = (0 : Fin 16).val + 1 ∧
    (withStack State.reset 16).sp.val = (15 : Fin 16).val + 1 ∧ State.reset.sp.val = 0 := by decide

/-- A push into the lowest entry, into the highest, and onto a full stack. -/
theorem witness_CallPushesOrReports : State.reset.sp.val = (0 : Fin 16).val ∧
    (withStack State.reset 15).sp.val = (15 : Fin 16).val ∧ (withStack State.reset 16).sp.val = 16 := by decide

theorem witness_ReturnAfterCallResumes : (withStack State.reset 15).sp.val < 16 := by decide

theorem witness_SkipOnRegister : (0x1#4 : Nib) ≠ 0 ∧ (0xF#4 : Nib) ≠ 0 := by decide

/-- A destination other than `VF`, for the three statements that set that case apart. -/
theorem witness_destination_not_vf : (0x0#4 : RegIx) ≠ 0xF#4 ∧ (0xE#4 : RegIx) ≠ 0xF#4 := by decide

/-- The three bytes at the top of memory wrap to address 1; address 2 is outside them. -/
theorem witness_StoreDecimalDigits : (State.reset.setI 0x0FFF).memWf = true ∧
    ∀ k < 3, 2 % 4096 ≠ ((State.reset.setI 0x0FFF).i.toNat + k) % 4096 := by decide

/-- Sixteen bytes from 0xFFF on end at address 14; address 15 is outside them. -/
theorem witness_StoreRegisters : (State.reset.setI 0x0FFF).memWf = true ∧ (0xF#4 : RegIx).toNat ≤ (0xF#4 : RegIx).toNat ∧
    ∀ k ≤ (0xF#4 : RegIx).toNat, 15 % 4096 ≠ ((State.reset.setI 0x0FFF).i.toNat + k) % 4096 := by decide

theorem witness_StoreThenLoadRestores : (at0 0xFF55).memWf = true ∧ (0x0#4 : RegIx).toNat ≤ (0xF#4 : RegIx).toNat := by
  decide

/-- In the middle, and with the next fetch across the top of memory. -/
theorem witness_StoreIsSeenByNextFetch :
    ((State.reset.setI 0x0202).memWf = true ∧ 1 ≤ (0x1#4 : RegIx).toNat ∧
      ((State.reset.setI 0x0202).pc.toNat + 2) % 4096 = (State.reset.setI 0x0202).i.toNat % 4096) ∧
    (({ State.reset with pc := 0x0FFD } : State).pc.toNat + 2) % 4096 = (State.reset.setI 0x0FFF).i.toNat % 4096 := by decide

/-- D7: the left bit of the sprite C0 falls on (0, 0), its right bit on (1, 0), which is on; (2, 0) is not covered. -/
def drawn : State := { withMem ((at0 0xD011).setI 0x0300) [(0x300, 0xC0)] with fb := Screen.flip Screen.blank 1 0 }

theorem witness_DrawInvertsCoveredPixels : Covers drawn 0 1 1 0 0 ∧ (Covers drawn 0 1 1 1 0 ∧ drawn.pixel 1 0 = true) ∧
    ¬ Covers drawn 0 1 1 2 0 ∧ ∀ px py, ¬ Covers drawn 0 1 0 px py := by
  refine ⟨⟨0, 0, by decide, by decide, by decide, by decide, by decide⟩,
    ⟨⟨0, 1, by decide, by decide, by decide, by decide, by decide⟩, by decide⟩, ?_, ?_⟩
  · rintro ⟨r, c, hr, hc, hx, -, hb⟩
    have h0 : r = 0 := Nat.lt_one_iff.mp hr
    have h2 : (2 : Nat) = (0 + c) % 64 := hx
    have hc2 : c = 2 := by omega
    subst h0 hc2
    revert hb
    decide
  · rintro px py ⟨r, c, hr, -⟩
    exact absurd hr (Nat.not_lt_zero r)

/-- A sprite with a set bit on a blank screen, drawn twice. -/
def undrawn : State := withMem ((at0 0xD011).setI 0x0300) [(0x300, 0xC0)]

theorem witness_DrawingTwiceErases : ∃ t, exec (.drw 0 1 1) undrawn = .next t ∧
    (({ t with v := t.v, pc := 0x0200 } : State).reg 0 = undrawn.reg 0) ∧
    (({ t with v := t.v, pc := 0x0200 } : State).reg 1 = undrawn.reg 1) ∧
    (∀ px py, Covers undrawn 0 1 1 px py → undrawn.pixel px py = false) ∧ ∃ px py, Covers undrawn 0 1 1 px py :=
  ⟨_, rfl, rfl, rfl, fun px py _ => by
    show ((Screen.blank)[py.val]'py.isLt).getLsbD px.val = false
    simp [Screen.blank], 0, 0, 0, 0, by decide, by decide, by decide, by decide, by decide⟩

/-- One key, several keys, none. -/
theorem witness_KeyLoadTakesPressedKey : ({ State.reset with key := 0x8000 } : State).key ≠ 0 ∧
    ({ State.reset with key := 0x1080 } : State).key ≠ 0 ∧ State.reset.key = 0 := by decide

/-- The first and the last address of each range. -/
theorem witness_ResetState : State.reset.memRead 0x04F = 0 ∧ some (State.reset.memRead 0x050) = fontTable[0]? ∧
    some (State.reset.memRead 0x09F) = fontTable[79]? ∧ State.reset.memRead 0x0A0 = 0 ∧ State.reset.memRead 0xFFF = 0 := by
  decide

/-- The hypothesis of every clause, and the values where the ranges meet, for another font than the default. -/
theorem witness_ResetState_font : ∃ s : State, s = State.resetWith (Vector.replicate 80 0xAA) ∧ s.memRead 0x04F = 0 ∧
    s.memRead 0x050 = 0xAA ∧ s.memRead 0x09F = 0xAA ∧ s.memRead 0x0A0 = 0 :=
  ⟨_, rfl, by decide⟩

/-- The longest ROM that loads and the shortest that does not (G2, G3); for the shorter, no byte outside. -/
theorem witness_LoadProgramCopiesOrFails : State.reset.memWf = true ∧
    (List.replicate 3584 (0xAA#8 : Byte)).length ≤ 3584 ∧ (List.replicate 3585 (0xAA#8 : Byte)).length > 3584 :=
  ⟨rfl, Nat.le_of_eq List.length_replicate, Nat.lt_of_lt_of_eq (by decide) List.length_replicate.symm⟩

theorem witness_LaunchState : ([] : List Byte).length ≤ 3584 ∧ (List.replicate 3585 (0xAA#8 : Byte)).length > 3584 :=
  ⟨Nat.zero_le _, Nat.lt_of_lt_of_eq (by decide) List.length_replicate.symm⟩

/-- B2, and the highest address a jump can name. -/
theorem witness_JumpToSelfIsStable : Spinning (at0 0x1200) ∧
    Spinning (({ State.reset with pc := 0x0FFF } : State).withFetchWord 16 0x1FFF) :=
  ⟨⟨by decide, by decide⟩, by decide, by decide⟩

end Sys2Proof.Tests
end

section
/-! Proofs about the state (spec/10_state.md): what changes the screen, and the state after reset. -/

namespace Sys2Proof.Machine

/-! What a step can be -/

/-- A step that answers a next state is the fetched instruction's meaning, or the report of an unknown opcode. -/
theorem step_next_cases {s t : State} (h : step s = .next t) :
    (∃ i, decode (opAt s) = .instr i ∧ exec i s = .next t) ∨
    (∃ op, decode (opAt s) = .unknown op ∧ t = s.raise .unknownOpcode op) := by
  cases hd : decode (opAt s) with
  | instr i => exact .inl ⟨i, rfl, by rw [← step_of_instr hd, h]⟩
  | unknown op =>
    rw [step_of_unknown hd, execUnknown] at h
    injection h with h
    exact .inr ⟨op, rfl, h.symm⟩

/-! The screen (spec/10_state.md R19, R20) -/

theorem screenKept_of_fb_redraw {s t : State} (hfb : t.fb = s.fb) (hr : t.redraw = s.redraw) : ScreenKept s t :=
  ⟨fun px py => by rw [State.pixel, hfb, State.pixel], hr⟩

theorem screenKept_storeFirst (s : State) (n : Nat) : ScreenKept s (s.storeFirst n) := by
  rw [State.storeFirst_frame]
  exact screenKept_of_fb_redraw rfl rfl

theorem screenKept_loadFirst (s : State) (n : Nat) : ScreenKept s (s.loadFirst n) := by
  rw [State.loadFirst_frame]
  exact screenKept_of_fb_redraw rfl rfl

/-- Every instruction but `00E0` and `Dxyn` keeps the screen. -/
theorem exec_screenKept {i : Instr} {s t : State} (h : exec i s = .next t) (hcls : i ≠ .cls)
    (hdrw : ∀ x y n, i ≠ .drw x y n) : ScreenKept s t := by
  refine exec_elim (P := fun i s t => i ≠ .cls → (∀ x y n, i ≠ .drw x y n) → ScreenKept s t)
    ?retEmpty ?retPop ?callFull ?callPush ?keyWait ?keyLoad ?store ?load ?other i s t h hcls hdrw
  case store => exact fun s x _ _ => screenKept_storeFirst s _
  case load => exact fun s x _ _ => screenKept_loadFirst s _
  case other =>
    intro i s t h hret hcall hkey hstore hload hcls hdrw
    cases i
    case cls => exact absurd rfl hcls
    case drw x y n => exact absurd rfl (hdrw x y n)
    case ret => exact absurd rfl hret
    case call nnn => exact absurd rfl (hcall nnn)
    case ldVxK x => exact absurd rfl (hkey x)
    case storeRegs x => exact absurd rfl (hstore x)
    case loadRegs x => exact absurd rfl (hload x)
    all_goals
      injection h with h
      subst h
      exact screenKept_of_fb_redraw rfl rfl
  all_goals
    intros
    exact screenKept_of_fb_redraw rfl rfl

theorem exec_cls_redraw {s t : State} (h : exec .cls s = .next t) : t.redraw = true := by
  injection h with h
  rw [← h, State.advance_redraw]

/-- Whatever the sprite, whether or not a pixel changed value (R20). -/
theorem exec_drw_redraw {s t : State} {x y : RegIx} {n : Nib} (h : exec (.drw x y n) s = .next t) :
    t.redraw = true := by
  injection h with h
  rw [← h, State.advance_redraw, State.setReg_redraw]

/-- A step of any opcode but `00E0` and `Dxyn`, an unknown one included, keeps the screen. -/
theorem step_screenKept {s t : State} (h : step s = .next t) (hcls : decode (opAt s) ≠ .instr .cls)
    (hdrw : ∀ x y n, decode (opAt s) ≠ .instr (.drw x y n)) : ScreenKept s t := by
  rcases step_next_cases h with ⟨i, hd, he⟩ | ⟨op, -, rfl⟩
  · rw [hd] at hcls hdrw
    exact exec_screenKept he (fun e => hcls (congrArg _ e)) fun x y n e => hdrw x y n (congrArg _ e)
  · exact screenKept_of_fb_redraw (s.raise_fb _ _) (s.raise_redraw _ _)

theorem step_redraw {s t : State} (h : step s = .next t)
    (hd : decode (opAt s) = .instr .cls ∨ ∃ x y n, decode (opAt s) = .instr (.drw x y n)) : t.redraw = true := by
  rcases hd with hd | ⟨x, y, n, hd⟩ <;> rw [step_of_instr hd] at h
  · exact exec_cls_redraw h
  · exact exec_drw_redraw h

/-- Settles O19: `step_redraw` for the clear and the draw, `step_screenKept` for every other opcode; the host's clear and
reset write the flag themselves. -/
theorem onlyClearAndDrawTouchScreen : Obligations.OnlyClearAndDrawTouchScreen :=
  ⟨fun _ _ h => ⟨step_redraw h, step_screenKept h⟩, State.redrawClear_redraw, fun _ => rfl⟩

/-! The state after reset (spec/10_state.md R28), for any font table: memory is that table at `fontBase` and 0 elsewhere -/

section
variable (font : Font)

theorem Memory.resetByte_below {a : Nat} (h : a < fontBase) : Memory.resetByte font a = 0 :=
  if_neg (Nat.not_le.mpr h)

theorem Memory.resetByte_font {j : Nat} (h : j < 80) : Memory.resetByte font (fontBase + j) = font[j] := by
  rw [Memory.resetByte, if_pos (Nat.le_add_right _ _), Nat.add_sub_cancel_left, Vector.getElem?_eq_getElem h,
    Option.getD_some]

theorem Memory.resetByte_above {a : Nat} (h : fontBase + 80 ≤ a) : Memory.resetByte font a = 0 := by
  rw [Memory.resetByte, if_pos (by omega), Vector.getElem?_eq_none (by omega), Option.getD_none]

theorem State.resetWith_memRead {a : Nat} (h : a < memSize) :
    (State.resetWith font).memRead a = Memory.resetByte font a := by
  rw [State.memRead, Nat.mod_eq_of_lt h]
  rfl

theorem State.resetWith_reg (r : RegIx) : (State.resetWith font).reg r = 0 :=
  Vector.getElem_replicate _

theorem State.resetWith_entry (k : Fin 16) : (State.resetWith font).entry k = 0 :=
  Vector.getElem_replicate _

theorem State.resetWith_pixel (px : Fin 64) (py : Fin 32) : (State.resetWith font).pixel px py = false :=
  Screen.pixel_blank px py

theorem State.resetWith_keyPressed (k : Nat) : (State.resetWith font).keyPressed k = false :=
  BitVec.getLsbD_zero

end

/-- Settles O55: a register, a stack entry, a pixel, a key and each range of memory by its own lemma about
`State.resetWith`; the other fields are written out there. -/
theorem resetState : Obligations.ResetState := by
  refine ⟨rfl, ?_⟩
  rintro font s rfl
  have hbase : fontBase = 0x050 := rfl
  have hsize : memSize = 0x1000 := rfl
  refine ⟨State.resetWith_reg font, rfl, rfl, rfl, State.resetWith_entry font, rfl, rfl, fun j hj => ?_, fun a ha => ?_,
    fun a hlo hhi => ?_, State.resetWith_pixel font, rfl, State.resetWith_keyPressed font, rfl⟩
  · rw [State.resetWith_memRead font (by omega), Vector.getElem?_eq_getElem hj]
    exact congrArg some (Memory.resetByte_font font hj)
  · rw [State.resetWith_memRead font (by omega), Memory.resetByte_below font (by omega)]
  · rw [State.resetWith_memRead font (by omega), Memory.resetByte_above font (by omega)]

end Sys2Proof.Machine
end

section
/-! Proofs about the encoding (spec/30_encoding.md): the groups 0, 8, E and F, each by its secondary opcode. -/

namespace Sys2Proof

/-! The group is the top nibble of the packed word (R61, R64) -/

section
variable (x y : RegIx) (n : Nib) (kk : Byte) (nnn : Addr12)

theorem decode_packNNN_0 : decode (packNNN 0x0#4 nnn) = decodeGroup0 (packNNN 0x0#4 nnn) := by
  simp only [decode, fieldT_packNNN]

theorem decode_packXYN_8 : decode (packXYN 0x8#4 x y n) = decodeGroup8 (packXYN 0x8#4 x y n) := by
  simp only [decode, fieldT_packXYN]

theorem decode_packXKK_E : decode (packXKK 0xE#4 x kk) = decodeGroupE (packXKK 0xE#4 x kk) := by
  simp only [decode, fieldT_packXKK]

theorem decode_packXKK_F : decode (packXKK 0xF#4 x kk) = decodeGroupF (packXKK 0xF#4 x kk) := by
  simp only [decode, fieldT_packXKK]

end

/-! Within a group, a secondary opcode that selects no instruction (R67, R68, R69): the arm of a listed one contradicts
the hypothesis -/

theorem decodeGroup8_unknown {op : Word}
    (h : fieldN op ∈ [0x8#4, 0x9#4, 0xA#4, 0xB#4, 0xC#4, 0xD#4, 0xF#4]) : decodeGroup8 op = .unknown op := by
  unfold decodeGroup8
  split
  case h_10 => rfl
  all_goals
    rename_i hn
    rw [hn] at h
    exact absurd h (by decide)

theorem decodeGroupE_unknown {op : Word} (h : fieldKK op ∉ [0x9E#8, 0xA1#8]) : decodeGroupE op = .unknown op := by
  unfold decodeGroupE
  split
  case h_3 => rfl
  all_goals
    rename_i hkk
    rw [hkk] at h
    exact absurd (by decide) h

theorem decodeGroupF_unknown {op : Word}
    (h : fieldKK op ∉ [0x07#8, 0x0A#8, 0x15#8, 0x18#8, 0x1E#8, 0x29#8, 0x33#8, 0x55#8, 0x65#8]) :
    decodeGroupF op = .unknown op := by
  unfold decodeGroupF
  split
  case h_10 => rfl
  all_goals
    rename_i hkk
    rw [hkk] at h
    exact absurd (by decide) h

/-- Settles O4: the word of each clause is a packed word, so `decode` goes to its group; there a listed secondary opcode
selects its row, and any other is `UNKNOWN` by the group's own lemma. -/
theorem nestedGroupsDecode : Obligations.NestedGroupsDecode := by
  refine ⟨fun nnn => ?group0, fun x y n op hop => ?group8, fun x kk op hop => ?groupE, fun x kk op hop => ?groupF⟩
  case group0 =>
    have hop : BitVec.ofNat 16 nnn.toNat = packNNN 0x0#4 nnn := by simp [packNNN]
    rw [hop, decode_packNNN_0, decodeGroup0, fieldNNN_packNNN]
  case group8 =>
    obtain rfl : op = packXYN 0x8#4 x y n := hop
    rw [decode_packXYN_8]
    refine ⟨?_, ?_, ?_, ?_, ?_, ?_, ?_, ?_, ?_, fun h => decodeGroup8_unknown (by rwa [fieldN_packXYN])⟩
    all_goals
      rintro rfl
      simp only [decodeGroup8, fieldN_packXYN, fieldX_packXYN, fieldY_packXYN]
  case groupE =>
    obtain rfl : op = packXKK 0xE#4 x kk := hop
    rw [decode_packXKK_E]
    refine ⟨?_, ?_, fun h => decodeGroupE_unknown (by rwa [fieldKK_packXKK])⟩
    all_goals
      rintro rfl
      simp only [decodeGroupE, fieldKK_packXKK, fieldX_packXKK]
  case groupF =>
    obtain rfl : op = packXKK 0xF#4 x kk := hop
    rw [decode_packXKK_F]
    refine ⟨?_, ?_, ?_, ?_, ?_, ?_, ?_, ?_, ?_, fun h => decodeGroupF_unknown (by rwa [fieldKK_packXKK])⟩
    all_goals
      rintro rfl
      simp only [decodeGroupF, fieldKK_packXKK, fieldX_packXKK]

end Sys2Proof
end

section
/-! Proofs about the step (spec/40_step_cycle.md): fetch, decode, dispatch. -/

namespace Sys2Proof.Machine

/-- Settles O6: the opcode at PC is the word `step` fetches, and `step` adds nothing around `exec` (`step_of_instr`). -/
theorem stepRunsFetchedInstruction : Obligations.StepRunsFetchedInstruction :=
  fun _ _ => step_of_instr

end Sys2Proof.Machine
end

section
/-! Proofs about control flow (spec/41_control_flow.md): the jump and the skips. -/

namespace Sys2Proof

/-! The words of the groups 1, 3, 4, 5 and 9 (spec/30_encoding.md R64, R65) -/

theorem decode_packNNN_1 (nnn : Addr12) : decode (packNNN 0x1#4 nnn) = .instr (.jp nnn) := by
  simp only [decode, fieldT_packNNN, fieldNNN_packNNN]

section
variable (x y : RegIx) (n : Nib) (kk : Byte)

theorem decode_packXKK_3 : decode (packXKK 0x3#4 x kk) = .instr (.seImm x kk) := by
  simp only [decode, fieldT_packXKK, fieldX_packXKK, fieldKK_packXKK]

theorem decode_packXKK_4 : decode (packXKK 0x4#4 x kk) = .instr (.sneImm x kk) := by
  simp only [decode, fieldT_packXKK, fieldX_packXKK, fieldKK_packXKK]

theorem decode_packXYN_5 :
    decode (packXYN 0x5#4 x y n) = if n = 0x0#4 then .instr (.seReg x y) else .unknown (packXYN 0x5#4 x y n) := by
  simp only [decode, decodeNZero, fieldT_packXYN, fieldX_packXYN, fieldY_packXYN, fieldN_packXYN]

theorem decode_packXYN_9 :
    decode (packXYN 0x9#4 x y n) = if n = 0x0#4 then .instr (.sneReg x y) else .unknown (packXYN 0x9#4 x y n) := by
  simp only [decode, decodeNZero, fieldT_packXYN, fieldX_packXYN, fieldY_packXYN, fieldN_packXYN]

end

end Sys2Proof

namespace Sys2Proof.Machine

/-- A transfer of control that has no other effect completes at `next`. -/
theorem completes_onlyRegs_complete (s : State) (next : Word) :
    Completes s (s.complete next) next ∧ OnlyRegs s (s.complete next) [] :=
  ⟨completes_complete next rfl rfl, onlyRegs_endStep next .none 0 (onlyRegs_refl s [])⟩

/-- A skip goes by its condition, whatever the test `c` that decides it, and has no other effect (R98). -/
theorem onlyRegs_completes_skipIf (s : State) {c : Bool} {p : Prop} [Decidable p] (h : c = true ↔ p) :
    OnlyRegs s (s.skipIf c) [] ∧ Completes s (s.skipIf c) (if p then s.pc + 4 else s.pc + 2) := by
  have hskip := completes_skipIf s c
  rw [if_congr h rfl rfl] at hskip
  exact ⟨onlyRegs_endStep _ .none 0 (onlyRegs_refl s []), hskip⟩

/-- The target in the words of the statements: zero extension keeps the number (spec/30_encoding.md R63). -/
theorem exec_jp (nnn : Addr12) (s : State) :
    exec (.jp nnn) s = .next (s.complete (BitVec.ofNat 16 nnn.toNat)) := by
  rw [BitVec.ofNat_toNat]
  rfl

/-- Settles O27: the target is `nnn` itself, zero-extended, and the jump only completes there. -/
theorem jumpSetsPc : Obligations.JumpSetsPc :=
  fun nnn s => ⟨decode_packNNN_1 nnn, _, exec_jp nnn s, completes_onlyRegs_complete s _⟩

/-- Settles O30: both instructions are skips, by a test of the register against the immediate. -/
theorem skipOnImmediate : Obligations.SkipOnImmediate :=
  fun x kk s => ⟨decode_packXKK_3 x kk, decode_packXKK_4 x kk,
    ⟨_, rfl, onlyRegs_completes_skipIf s beq_iff_eq⟩, ⟨_, rfl, onlyRegs_completes_skipIf s bne_iff_ne⟩⟩

/-- Settles O31: both instructions are skips, by a test of two registers; the word with the low nibble `n` is the packed
word of `n`, which decodes to the instruction at 0 and to `UNKNOWN` elsewhere. -/
theorem skipOnRegister : Obligations.SkipOnRegister := by
  refine fun x y s => ⟨decode_packXYN_5 x y 0, decode_packXYN_9 x y 0, fun n hn op hop => ?unknown,
    ⟨_, rfl, onlyRegs_completes_skipIf s beq_iff_eq⟩, ⟨_, rfl, onlyRegs_completes_skipIf s bne_iff_ne⟩⟩
  case unknown =>
    rcases hop with rfl | rfl
    · exact (decode_packXYN_5 x y n).trans (if_neg hn)
    · exact (decode_packXYN_9 x y n).trans (if_neg hn)

end Sys2Proof.Machine
end

section
/-! Proofs about load, arithmetic and logic (spec/42_load_arith_logic.md): each instruction writes a register, or a
register and then `VF`, and advances. -/

namespace Sys2Proof

/-! The words of the groups 6, 7 and 8 (spec/30_encoding.md R64, R65, R67) -/

theorem decode_packXKK_6 (x : RegIx) (kk : Byte) : decode (packXKK 0x6#4 x kk) = .instr (.ldImm x kk) := by
  simp only [decode, fieldT_packXKK, fieldX_packXKK, fieldKK_packXKK]

theorem decode_packXKK_7 (x : RegIx) (kk : Byte) : decode (packXKK 0x7#4 x kk) = .instr (.addImm x kk) := by
  simp only [decode, fieldT_packXKK, fieldX_packXKK, fieldKK_packXKK]

/-- The word of a row of group 8, its fixed digits in one number as the statements write it, decodes to that row's
instruction. That `n` selects the row is closed by evaluating the match of `decodeGroup8` at `n`. -/
theorem decode_8xyn (x y : RegIx) (n : Nib) (row : RegIx → RegIx → Instr)
    (hrow : ∀ op, fieldN op = n → decodeGroup8 op = .instr (row (fieldX op) (fieldY op)) := by
      intro op hn; simp only [decodeGroup8, hn]) :
    decode (BitVec.ofNat 16 (0x8000 + n.toNat + x.toNat * 0x100 + y.toNat * 0x10)) = .instr (row x y) := by
  have hword : 0x8000 + n.toNat + x.toNat * 0x100 + y.toNat * 0x10 =
      0x8000 + x.toNat * 0x100 + y.toNat * 0x10 + n.toNat := by omega
  calc decode (BitVec.ofNat 16 (0x8000 + n.toNat + x.toNat * 0x100 + y.toNat * 0x10))
      = decode (packXYN 0x8#4 x y n) := by rw [hword]; rfl
    _ = decodeGroup8 (packXYN 0x8#4 x y n) := decode_packXYN_8 x y n
    _ = .instr (row x y) := by rw [hrow _ (fieldN_packXYN ..), fieldX_packXYN, fieldY_packXYN]

end Sys2Proof

namespace Sys2Proof.Machine

/-! Results and flags as numbers (R112) -/

theorem flagByte_toNat (p : Prop) [Decidable p] : (flagByte (decide p)).toNat = if p then 1 else 0 := by
  by_cases hp : p <;> simp [flagByte, hp]

section
variable (a b : Byte)

theorem carryFlag_toNat : (carryFlag a b).toNat = if a.toNat + b.toNat > 255 then 1 else 0 :=
  flagByte_toNat _

theorem noBorrowFlag_toNat : (noBorrowFlag a b).toNat = if a.toNat ≥ b.toNat then 1 else 0 :=
  flagByte_toNat _

theorem lowBitFlag_toNat : (lowBitFlag a).toNat = a.toNat % 2 := by
  rw [lowBitFlag, BitVec.toNat_and]
  exact Nat.and_one_is_mod _

theorem highBitFlag_toNat : (highBitFlag a).toNat = a.toNat / 128 := by
  rw [highBitFlag, BitVec.toNat_ushiftRight, Nat.shiftRight_eq_div_pow]

theorem shiftRight_one_toNat : (a >>> 1).toNat = a.toNat / 2 := by
  rw [BitVec.toNat_ushiftRight, Nat.shiftRight_eq_div_pow]

theorem shiftLeft_one_toNat : (a <<< 1).toNat = a.toNat * 2 % 256 := by
  rw [BitVec.toNat_shiftLeft, Nat.shiftLeft_eq]

/-- The difference by cases of the borrow (R107). -/
theorem subByte_toNat_borrow :
    (subByte a b).toNat = if a.toNat ≥ b.toNat then a.toNat - b.toNat else a.toNat + 256 - b.toNat := by
  have ha := a.isLt
  rw [subByte_toNat]
  split <;> omega

end

/-! The two forms of effect: a register, and a register with a flag after it (R113) -/

/-- Writing one register and advancing has no other effect. -/
theorem completes_onlyRegs_setReg (s : State) (x : RegIx) (b : Byte) :
    Completes s (s.setReg x b).advance (s.pc + 2) ∧ OnlyRegs s (s.setReg x b).advance [x] :=
  ⟨completes_advance rfl rfl rfl, onlyRegs_endStep _ .none 0 (onlyRegs_setReg s x b)⟩

/-- An instruction that writes the result `b`, then the flag `f`, and advances: the destination holds the result unless
it is `VF`, `VF` holds the flag whatever the destination, and nothing else changes. -/
theorem exec_setRegFlag {i : Instr} {s : State} {x : RegIx} {b f : Byte} {result flag : Nat}
    (h : exec i s = .next (s.setRegFlag x b f).advance) (hb : b.toNat = result) (hf : f.toNat = flag) :
    ∃ t, exec i s = .next t ∧ (x ≠ 0xF#4 → (t.reg x).toNat = result) ∧ (t.reg 0xF#4).toNat = flag ∧
      Completes s t (s.pc + 2) ∧ OnlyRegs s t [x, 0xF#4] := by
  refine ⟨_, h, fun hx => ?_, ?_, completes_advance rfl rfl rfl,
    onlyRegs_endStep _ .none 0 (onlyRegs_setRegFlag s x b f)⟩
  · rw [State.advance_reg, State.reg_setRegFlag, if_neg hx, if_pos rfl, hb]
  · rw [State.advance_reg, State.reg_setRegFlag, if_pos rfl, hf]

/-- Settles O36: the result is the sum of `addByte_toNat`, the flag the carry. -/
theorem addSetsCarry : Obligations.AddSetsCarry :=
  fun x y _ => ⟨decode_8xyn x y 0x4#4 .addReg, exec_setRegFlag rfl (addByte_toNat _ _) (carryFlag_toNat _ _)⟩

/-- Settles O37: one argument for both, minuend and subtrahend exchanged. -/
theorem subtractSetsNoBorrow : Obligations.SubtractSetsNoBorrow :=
  fun x y _ => ⟨decode_8xyn x y 0x5#4 .sub, decode_8xyn x y 0x7#4 .subn,
    exec_setRegFlag rfl (subByte_toNat_borrow _ _) (noBorrowFlag_toNat _ _),
    exec_setRegFlag rfl (subByte_toNat_borrow _ _) (noBorrowFlag_toNat _ _)⟩

/-- Settles O38: the result is half or twice the number in `Vx`, the flag its lowest or its highest bit; `y` occurs in
the word only. -/
theorem shiftsSetBitShiftedOut : Obligations.ShiftsSetBitShiftedOut :=
  fun x y _ => ⟨decode_8xyn x y 0x6#4 .shr, decode_8xyn x y 0xE#4 .shl,
    exec_setRegFlag rfl (shiftRight_one_toNat _) (lowBitFlag_toNat _),
    exec_setRegFlag rfl (shiftLeft_one_toNat _) (highBitFlag_toNat _)⟩

/-- Settles O33: both instructions write one register, with the immediate or with the other register. -/
theorem loadImmediateAndCopy : Obligations.LoadImmediateAndCopy :=
  ⟨fun x kk s => ⟨decode_packXKK_6 x kk, _, rfl, s.reg_setReg_self x kk, completes_onlyRegs_setReg s x kk⟩,
    fun x y s => ⟨decode_8xyn x y 0x0#4 .ldReg, _, rfl,
      s.reg_setReg_self x (s.reg y), completes_onlyRegs_setReg s x (s.reg y)⟩⟩

/-- Settles O34: the instruction writes one register, with the sum of `addByte_toNat`, and so no flag. -/
theorem addImmediateWraps : Obligations.AddImmediateWraps := by
  refine fun x kk s => ⟨decode_packXKK_7 x kk, _, rfl, ?_, completes_onlyRegs_setReg s x _⟩
  rw [State.advance_reg, State.reg_setReg_self, addByte_toNat]

/-- Settles O35: each instruction writes one register, with a result whose bits the library's lemma about its operation
gives. -/
theorem logicIsBitwise : Obligations.LogicIsBitwise := by
  refine fun x y s => ⟨decode_8xyn x y 0x1#4 .orReg, decode_8xyn x y 0x2#4 .andReg, decode_8xyn x y 0x3#4 .xorReg,
    ⟨_, rfl, fun j => ?or, completes_onlyRegs_setReg s x _⟩,
    ⟨_, rfl, fun j => ?and, completes_onlyRegs_setReg s x _⟩,
    ⟨_, rfl, fun j => ?xor, completes_onlyRegs_setReg s x _⟩⟩
  case or => rw [State.advance_reg, State.reg_setReg_self, BitVec.getLsbD_or]
  case and => rw [State.advance_reg, State.reg_setReg_self, BitVec.getLsbD_and]
  case xor => rw [State.advance_reg, State.reg_setReg_self, BitVec.getLsbD_xor]

end Sys2Proof.Machine
end

section
/-! Proofs about the index register and memory (spec/43_index_memory.md): loading `I`, adding to it, and the decimal
digits. -/

namespace Sys2Proof

/-! The words of the groups A and F (spec/30_encoding.md R64, R65, R69) -/

theorem decode_packNNN_A (nnn : Addr12) : decode (packNNN 0xA#4 nnn) = .instr (.ldI nnn) := by
  simp only [decode, fieldT_packNNN, fieldNNN_packNNN]

/-- The word of a row of group F, its fixed digits in one number as the statements write it, decodes to that row's
instruction. That `kk` selects the row is closed by evaluating the match of `decodeGroupF` at `kk`. -/
theorem decode_Fxkk (x : RegIx) (kk : Byte) (row : RegIx → Instr)
    (hrow : ∀ op, fieldKK op = kk → decodeGroupF op = .instr (row (fieldX op)) := by
      intro op hkk; simp only [decodeGroupF, hkk]) :
    decode (BitVec.ofNat 16 (0xF000 + kk.toNat + x.toNat * 0x100)) = .instr (row x) :=
  calc decode (BitVec.ofNat 16 (0xF000 + kk.toNat + x.toNat * 0x100))
      = decode (packXKK 0xF#4 x kk) := by rw [Nat.add_right_comm]; rfl
    _ = decodeGroupF (packXKK 0xF#4 x kk) := decode_packXKK_F x kk
    _ = .instr (row x) := by rw [hrow _ (fieldKK_packXKK ..), fieldX_packXKK]

end Sys2Proof

namespace Sys2Proof.Machine

/-! Values of the index register and the flag of `Fx1E` as numbers (R120, R121) -/

theorem zext16_toNat (nnn : Addr12) : (zext16 nnn).toNat = nnn.toNat :=
  BitVec.toNat_setWidth_of_le (by decide)

theorem ofNat_mod_4096_toNat (n : Nat) : (BitVec.ofNat 16 (n % 4096)).toNat = n % 4096 := by
  rw [BitVec.toNat_ofNat]
  omega

theorem indexOverflowFlag_toNat (i : Word) (a : Byte) :
    (indexOverflowFlag i a).toNat = if i.toNat + a.toNat > 0xFFF then 1 else 0 :=
  flagByte_toNat _

/-- What changes only registers after `I` has been set to `w` leaves `I` at `w` and keeps all else. -/
theorem kept_of_onlyRegs_setI {s t : State} {w : Word} {l : List RegIx} (h : OnlyRegs (s.setI w) t l) :
    t.i = w ∧ RegsKept s t l ∧ StackKept s t ∧ MemKept s t ∧ ScreenKept s t ∧ InputsKept s t := by
  obtain ⟨hregs, hi, hrest⟩ := h
  exact ⟨hi, hregs, hrest⟩

/-- Settles O40: the instruction sets `I` to `nnn`, zero-extended, and then only completes. -/
theorem loadIndexImmediate : Obligations.LoadIndexImmediate := by
  intro nnn s
  obtain ⟨hc, honly⟩ := completes_onlyRegs_complete (s.setI (zext16 nnn)) s.pcNext
  obtain ⟨hi, hkept⟩ := kept_of_onlyRegs_setI honly
  exact ⟨decode_packNNN_A nnn, _, rfl, hi ▸ zext16_toNat nnn, hc, hkept⟩

/-- Settles O42: the sum and the flag are computed from the old values before `VF` is written, so `x` = F is no case of
its own; after `I` is set the instruction writes one register. -/
theorem addToIndexSetsOverflow : Obligations.AddToIndexSetsOverflow := by
  intro x s
  obtain ⟨hc, honly⟩ := completes_onlyRegs_setReg
    (s.setI (BitVec.ofNat 16 (indexSum s.i (s.reg x) % 4096))) vf (indexOverflowFlag s.i (s.reg x))
  obtain ⟨hi, hkept⟩ := kept_of_onlyRegs_setI honly
  refine ⟨decode_Fxkk x 0x1E#8 .addI, _, rfl, hi ▸ ofNat_mod_4096_toNat _, ?flag, hc, hkept⟩
  case flag => rw [State.advance_reg, State.reg_setReg_self, indexOverflowFlag_toNat]

/-! The decimal digits (R123) -/

theorem bcdDigits_toNat (a : Byte) :
    (bcdDigits a).1.toNat = a.toNat / 100 ∧ (bcdDigits a).2.1.toNat = a.toNat / 10 % 10 ∧
      (bcdDigits a).2.2.toNat = a.toNat % 10 := by
  have ha := a.isLt
  simp only [bcdDigits, BitVec.toNat_ofNat]
  omega

/-- Three bytes stored from address `a` on, ascending: the memory effect of `Fx33` (`exec_ldB`). -/
def State.memWriteThree (s : State) (a : Nat) (d : Byte × Byte × Byte) : State :=
  ((s.memWrite a d.1).memWrite (a + 1) d.2.1).memWrite (a + 2) d.2.2

theorem exec_ldB (x : RegIx) (s : State) :
    exec (.ldB x) s = .next (s.memWriteThree s.i.toNat (bcdDigits (s.reg x))).advance := rfl

/-- The three bytes read back: no two of the addresses coincide mod 4096, so a later store keeps the earlier bytes. -/
theorem State.memRead_memWriteThree {s : State} (h : s.memWf = true) (a : Nat) (d : Byte × Byte × Byte) :
    (s.memWriteThree a d).memRead a = d.1 ∧ (s.memWriteThree a d).memRead (a + 1) = d.2.1 ∧
      (s.memWriteThree a d).memRead (a + 2) = d.2.2 := by
  have h₁ := State.wf_memWrite h a d.1
  have h₂ := State.wf_memWrite h₁ (a + 1) d.2.1
  refine ⟨?first, ?second, ?third⟩ <;> rw [State.memWriteThree]
  case first =>
    rw [State.memRead_memWrite_other _ _ (by omega), State.memRead_memWrite_other _ _ (by omega),
      State.memRead_memWrite h, if_pos rfl]
  case second => rw [State.memRead_memWrite_other _ _ (by omega), State.memRead_memWrite h₁, if_pos rfl]
  case third => rw [State.memRead_memWrite h₂, if_pos rfl]

theorem State.memRead_memWriteThree_other (s : State) {a a' : Nat} (d : Byte × Byte × Byte)
    (h : ∀ k < 3, a' % 4096 ≠ (a + k) % 4096) : (s.memWriteThree a d).memRead a' = s.memRead a' := by
  have h₀ : a' % 4096 ≠ a % 4096 := h 0 (by decide)
  rw [State.memWriteThree, State.memRead_memWrite_other _ _ (h 2 (by decide)).symm,
    State.memRead_memWrite_other _ _ (h 1 (by decide)).symm, State.memRead_memWrite_other _ _ h₀.symm]

/-- Changing memory and advancing has no other effect. -/
theorem completes_kept_setMem (s : State) (m : Memory) {t : State} (ht : t = ({ s with mem := m } : State).advance) :
    Completes s t (s.pc + 2) ∧ RegsKept s t [] ∧ t.i = s.i ∧ StackKept s t ∧ ScreenKept s t ∧ InputsKept s t := by
  subst ht
  exact ⟨completes_advance rfl rfl rfl, fun _ _ => rfl, rfl, ⟨rfl, fun _ => rfl⟩, screenKept_of_fb_redraw rfl rfl,
    rfl, rfl, rfl⟩

/-- Settles O43: the three bytes read back as the digits of `bcdDigits_toNat`, whose place values give the number again;
the other bytes are as before because the stores do not reach them, and memory is all that changes. -/
theorem storeDecimalDigits : Obligations.StoreDecimalDigits := by
  refine fun x s => ⟨decode_Fxkk x 0x33#8 .ldB, fun hwf => ⟨_, exec_ldB x s, ?_⟩⟩
  obtain ⟨hd₀, hd₁, hd₂⟩ := bcdDigits_toNat (s.reg x)
  obtain ⟨hm₀, hm₁, hm₂⟩ := State.memRead_memWriteThree hwf s.i.toNat (bcdDigits (s.reg x))
  simp only [State.advance_memRead, hm₀, hm₁, hm₂, hd₀, hd₁, hd₂]
  exact ⟨trivial, trivial, trivial, by omega, fun a ha => s.memRead_memWriteThree_other _ ha,
    completes_kept_setMem s _ rfl⟩

end Sys2Proof.Machine
end

section
/-! Proofs about exceptions (spec/60_exceptions.md): the opcode that matches no row of the opcode map. -/

namespace Sys2Proof

/-! The decoder follows the opcode map (spec/30_encoding.md R64, R70): an arm's top nibble and secondary opcode are the
fixed digits of its instruction's row -/

/-- `d` is an answer for `op` that the opcode map allows: an instruction whose row `op` matches, or `UNKNOWN` with `op`
itself. -/
def Decoded.FollowsMap (op : Word) : Decoded → Prop
  | .instr i => matchesRowOf op i
  | .unknown w => w = op

theorem decodeGroup0_followsMap {op : Word} (ht : fieldT op = 0x0#4) : (decodeGroup0 op).FollowsMap op := by
  have hop := packNNN_fields op
  rw [ht] at hop
  unfold decodeGroup0
  split
  case isTrue hcls =>
    rw [← hop, hcls]
    rfl
  case isFalse =>
    split
    case isTrue hret =>
      rw [← hop, hret]
      rfl
    case isFalse => rfl

theorem decodeNZero_followsMap {op : Word} {i : Instr} (hrow : fieldN op = 0x0#4 → matchesRowOf op i) :
    (decodeNZero op i).FollowsMap op := by
  unfold decodeNZero
  split
  case isTrue hn => exact hrow hn
  case isFalse => rfl

theorem decodeGroup8_followsMap {op : Word} (ht : fieldT op = 0x8#4) : (decodeGroup8 op).FollowsMap op := by
  unfold decodeGroup8
  split
  case h_10 => rfl
  all_goals
    rename_i hn
    have hrow := (mask_F00F_iff op _ _).mpr ⟨ht, hn⟩
    exact hrow

theorem decodeGroupE_followsMap {op : Word} (ht : fieldT op = 0xE#4) : (decodeGroupE op).FollowsMap op := by
  unfold decodeGroupE
  split
  case h_3 => rfl
  all_goals
    rename_i hkk
    have hrow := (mask_F0FF_iff op _ _).mpr ⟨ht, hkk⟩
    exact hrow

theorem decodeGroupF_followsMap {op : Word} (ht : fieldT op = 0xF#4) : (decodeGroupF op).FollowsMap op := by
  unfold decodeGroupF
  split
  case h_10 => rfl
  all_goals
    rename_i hkk
    have hrow := (mask_F0FF_iff op _ _).mpr ⟨ht, hkk⟩
    exact hrow

/-- The groups with a secondary opcode go by their own lemmas; the row of any other is its top nibble alone. -/
theorem decode_followsMap (op : Word) : (decode op).FollowsMap op := by
  unfold decode
  split
  case h_1 ht => exact decodeGroup0_followsMap ht
  case h_6 ht => exact decodeNZero_followsMap fun hn => (mask_F00F_iff op 0x5#4 0x0#4).mpr ⟨ht, hn⟩
  case h_9 ht => exact decodeGroup8_followsMap ht
  case h_10 ht => exact decodeNZero_followsMap fun hn => (mask_F00F_iff op 0x9#4 0x0#4).mpr ⟨ht, hn⟩
  case h_15 ht => exact decodeGroupE_followsMap ht
  case h_16 ht => exact decodeGroupF_followsMap ht
  case h_17 => rfl
  all_goals
    rename_i ht
    have hrow := (mask_F000_iff op _).mpr ht
    exact hrow

theorem decode_unknown_of_no_row {op : Word} (h : ∀ i, ¬ matchesRowOf op i) : decode op = .unknown op := by
  have hmap := decode_followsMap op
  cases hd : decode op with
  | instr i =>
    rw [hd] at hmap
    exact absurd hmap (h i)
  | unknown w =>
    rw [hd] at hmap
    exact congrArg _ hmap

end Sys2Proof

namespace Sys2Proof.Machine

/-- Settles O7: an opcode without a row decodes to `UNKNOWN` with that opcode (`decode_unknown_of_no_row`), and the step
then only raises the diagnostic. -/
theorem unknownOpcodeIsReportedAndSkipped : Obligations.UnknownOpcodeIsReportedAndSkipped :=
  fun s hrow => ⟨_, step_of_unknown (decode_unknown_of_no_row hrow), reports_raise s _ _⟩

end Sys2Proof.Machine
end

section
/-! Proofs about the encoding as a whole (spec/30_encoding.md R61 to R65, R70): decoder and encoder are inverse to each
other, and the decoder answers every word by its row of the opcode map. -/

namespace Sys2Proof

/-! An instruction read back from its word: one argument for each format of R62 -/

theorem decode_encode (i : Instr) : decode (encode i) = .instr i := by
  cases i
  case cls | ret => rfl
  case jp | call | ldI | jpV0 => simp only [encode, decode, fieldT_packNNN, fieldNNN_packNNN]
  case seImm | sneImm | ldImm | addImm | rnd =>
    simp only [encode, decode, fieldT_packXKK, fieldX_packXKK, fieldKK_packXKK]
  case drw | seReg | sneReg =>
    simp only [encode, decode, decodeNZero, fieldT_packXYN, fieldX_packXYN, fieldY_packXYN, fieldN_packXYN, ↓reduceIte]
  case ldReg | orReg | andReg | xorReg | addReg | sub | shr | subn | shl =>
    simp only [encode, decode_packXYN_8, decodeGroup8, fieldX_packXYN, fieldY_packXYN, fieldN_packXYN]
  case skp | sknp => simp only [encode, decode_packXKK_E, decodeGroupE, fieldX_packXKK, fieldKK_packXKK]
  case ldVxDt | ldVxK | ldDtVx | ldStVx | addI | ldF | ldB | storeRegs | loadRegs =>
    simp only [encode, decode_packXKK_F, decodeGroupF, fieldX_packXKK, fieldKK_packXKK]

/-! A word packed again from the fields that the decoder read: within a group, the top nibble and the secondary opcode
are the fixed digits of the instruction -/

section
variable {op : Word} {i : Instr}

theorem encode_of_decodeGroup0 (ht : fieldT op = 0x0#4) (h : decodeGroup0 op = .instr i) : encode i = op := by
  have hop := packNNN_fields op
  rw [ht] at hop
  unfold decodeGroup0 at h
  split at h
  case isTrue hcls =>
    rw [← Decoded.instr.inj h, ← hop, hcls]
    rfl
  case isFalse =>
    split at h
    case isTrue hret =>
      rw [← Decoded.instr.inj h, ← hop, hret]
      rfl
    case isFalse => nomatch h

theorem encode_of_decodeNZero {j : Instr} (hj : fieldN op = 0x0#4 → encode j = op) (h : decodeNZero op j = .instr i) :
    encode i = op := by
  unfold decodeNZero at h
  split at h
  case isTrue hn =>
    exact Decoded.instr.inj h ▸ hj hn
  case isFalse => nomatch h

theorem encode_of_decodeGroup8 (ht : fieldT op = 0x8#4) (h : decodeGroup8 op = .instr i) : encode i = op := by
  have hop := packXYN_fields op
  unfold decodeGroup8 at h
  split at h
  case h_10 => nomatch h
  all_goals
    rename_i hn
    rw [ht, hn] at hop
    exact Decoded.instr.inj h ▸ hop

theorem encode_of_decodeGroupE (ht : fieldT op = 0xE#4) (h : decodeGroupE op = .instr i) : encode i = op := by
  have hop := packXKK_fields op
  unfold decodeGroupE at h
  split at h
  case h_3 => nomatch h
  all_goals
    rename_i hkk
    rw [ht, hkk] at hop
    exact Decoded.instr.inj h ▸ hop

theorem encode_of_decodeGroupF (ht : fieldT op = 0xF#4) (h : decodeGroupF op = .instr i) : encode i = op := by
  have hop := packXKK_fields op
  unfold decodeGroupF at h
  split at h
  case h_10 => nomatch h
  all_goals
    rename_i hkk
    rw [ht, hkk] at hop
    exact Decoded.instr.inj h ▸ hop

/-- The groups with a secondary opcode go by their own lemmas; the word of any other row is its top nibble and the
fields of its format. -/
theorem encode_of_decode (h : decode op = .instr i) : encode i = op := by
  have hNNN := packNNN_fields op
  have hXKK := packXKK_fields op
  have hXYN := packXYN_fields op
  unfold decode at h
  split at h
  case h_1 ht => exact encode_of_decodeGroup0 ht h
  case h_6 ht | h_10 ht =>
    rw [ht] at hXYN
    exact encode_of_decodeNZero (fun hn => by rwa [hn] at hXYN) h
  case h_9 ht => exact encode_of_decodeGroup8 ht h
  case h_15 ht => exact encode_of_decodeGroupE ht h
  case h_16 ht => exact encode_of_decodeGroupF ht h
  case h_17 => nomatch h
  case h_2 ht | h_3 ht | h_11 ht | h_12 ht =>
    rw [ht] at hNNN
    exact Decoded.instr.inj h ▸ hNNN
  case h_4 ht | h_5 ht | h_7 ht | h_8 ht | h_13 ht =>
    rw [ht] at hXKK
    exact Decoded.instr.inj h ▸ hXKK
  case h_14 ht =>
    rw [ht] at hXYN
    exact Decoded.instr.inj h ▸ hXYN

end

/-! A word that matches a row has the fixed digits of that row in its fields (R65) -/

section
variable {op w : Word}

theorem fieldT_of_mask_F000 (h : op &&& 0xF000#16 = w) : fieldT op = w.extractLsb' 12 4 := by
  have hm := and_F000_toNat op
  rw [h] at hm
  apply BitVec.eq_of_toNat_eq
  rw [fieldT_toNat, ← fieldT, fieldT_toNat]
  omega

theorem fields_of_mask_F00F (h : op &&& 0xF00F#16 = w) :
    fieldT op = w.extractLsb' 12 4 ∧ fieldN op = w.extractLsb' 0 4 := by
  have hm := and_F00F_toNat op
  rw [h] at hm
  constructor <;> apply BitVec.eq_of_toNat_eq
  · rw [fieldT_toNat, ← fieldT, fieldT_toNat]
    omega
  · rw [fieldN_toNat, ← fieldN, fieldN_toNat]
    omega

theorem fields_of_mask_F0FF (h : op &&& 0xF0FF#16 = w) :
    fieldT op = w.extractLsb' 12 4 ∧ fieldKK op = w.extractLsb' 0 8 := by
  have hm := and_F0FF_toNat op
  rw [h] at hm
  constructor <;> apply BitVec.eq_of_toNat_eq
  · rw [fieldT_toNat, ← fieldT, fieldT_toNat]
    omega
  · rw [fieldKK_toNat, ← fieldKK, fieldKK_toNat]
    omega

theorem eq_of_mask_FFFF (h : op &&& 0xFFFF#16 = w) : op = w :=
  (BitVec.and_allOnes (x := op)).symm.trans h

end

/-- `d` is an instruction of the row `row` of the opcode map. -/
def Decoded.HasRow (row : Word × Word) : Decoded → Prop
  | .instr i => opcodeRow i = row
  | .unknown _ => False

/-- A word that matches a row decodes to an instruction of that row: the fields that the row fixes are those `decode`
looks at. One argument for each mask. -/
theorem decode_hasRow {op : Word} {j : Instr} (h : matchesRowOf op j) : (decode op).HasRow (opcodeRow j) := by
  cases j
  case cls | ret =>
    obtain rfl := eq_of_mask_FFFF h
    exact rfl
  case jp | call | seImm | sneImm | ldImm | addImm | ldI | jpV0 | rnd | drw =>
    have ht := fieldT_of_mask_F000 h
    simp only [opcodeRow, BitVec.reduceExtractLsb'] at ht
    simp only [decode, ht]
    exact rfl
  case seReg | sneReg | ldReg | orReg | andReg | xorReg | addReg | sub | shr | subn | shl =>
    obtain ⟨ht, hn⟩ := fields_of_mask_F00F h
    simp only [opcodeRow, BitVec.reduceExtractLsb'] at ht hn
    simp only [decode, ht, decodeNZero, decodeGroup8, hn]
    exact rfl
  case skp | sknp | ldVxDt | ldVxK | ldDtVx | ldStVx | addI | ldF | ldB | storeRegs | loadRegs =>
    obtain ⟨ht, hkk⟩ := fields_of_mask_F0FF h
    simp only [opcodeRow, BitVec.reduceExtractLsb'] at ht hkk
    simp only [decode, ht, decodeGroupE, decodeGroupF, hkk]
    exact rfl

theorem exists_decode_of_row {op : Word} {j : Instr} (h : matchesRowOf op j) :
    ∃ i, decode op = .instr i ∧ opcodeRow i = opcodeRow j := by
  have hrow := decode_hasRow h
  cases hd : decode op with
  | instr i => exact ⟨i, rfl, by rwa [hd] at hrow⟩
  | unknown w => rw [hd] at hrow; exact hrow.elim

theorem matchesRowOf_of_decode {op : Word} {i : Instr} (h : decode op = .instr i) : matchesRowOf op i := by
  have hmap := decode_followsMap op
  rwa [h] at hmap

/-- Two rows that one word matches are the row of the instruction it decodes to. -/
theorem opcodeRow_eq_of_matches {op : Word} {j k : Instr} (hj : matchesRowOf op j) (hk : matchesRowOf op k) :
    opcodeRow j = opcodeRow k := by
  obtain ⟨i, hd, hij⟩ := exists_decode_of_row hj
  obtain ⟨i', hd', hik⟩ := exists_decode_of_row hk
  obtain rfl : i = i' := Decoded.instr.inj (hd.symm.trans hd')
  exact hij.symm.trans hik

theorem opcodeRow_mem_opcodeMap (i : Instr) : opcodeRow i ∈ opcodeMap.map opcodeRow := by
  cases i <;> simp [opcodeMap, opcodeRow]

/-- Settles O1: by the format of each instruction's word (`decode_encode`). -/
theorem decodeOfEncode : Obligations.DecodeOfEncode :=
  decode_encode

/-- Settles O2: the decoder reads every bit of the word into a field of the instruction (`encode_of_decode`). -/
theorem encodeOfDecode : Obligations.EncodeOfDecode :=
  fun _ _ => encode_of_decode

/-- Settles O3: the map is listed, so its rows are counted and compared by evaluation; what a word decodes to follows
its row in both directions, which makes the rows disjoint. -/
theorem decodeFollowsOpcodeMap : Obligations.DecodeFollowsOpcodeMap :=
  ⟨by decide, by decide, opcodeRow_mem_opcodeMap, fun _ => ⟨fun _ => matchesRowOf_of_decode,
    fun _ => exists_decode_of_row, fun _ _ => opcodeRow_eq_of_matches, decode_unknown_of_no_row⟩⟩

/-- Settles O5: twelve given words, decoded by evaluation. -/
theorem sampleWordsDecode : Obligations.SampleWordsDecode := by
  unfold Obligations.SampleWordsDecode
  decide

end Sys2Proof
end

section
/-! What a step can be, said once (spec/40_step_cycle.md R82 to R86): it waits, or reports a diagnostic, or completes
the effect of its instruction. -/

namespace Sys2Proof

/-- The word by which a decoded opcode is reported (spec/60_exceptions.md R151). -/
def Decoded.word : Decoded → Word
  | .instr i => encode i
  | .unknown op => op

/-- It is the opcode itself. -/
theorem decode_word (op : Word) : (decode op).word = op := by
  have hmap := decode_followsMap op
  cases hd : decode op with
  | instr i => exact encode_of_decode hd
  | unknown w => rwa [hd] at hmap

end Sys2Proof

namespace Sys2Proof.Machine

/-- The effect of an instruction in a step that completes, before the end of the step: what the meaning of the
instruction does to the state apart from PC, the tick and the outputs (`exec_of_endsAs`). -/
def effect (s : State) : Instr → State
  | .cls => { s with fb := Screen.blank, redraw := true }
  | .ret => { s with sp := ⟨s.sp.val - 1, Nat.lt_of_le_of_lt (Nat.sub_le _ _) s.sp.isLt⟩ }
  | .call _ =>
    { s with
      stack := s.stack.setIfInBounds s.sp.val s.pcNext
      sp := ⟨min (s.sp.val + 1) 16, Nat.lt_succ_of_le (Nat.min_le_right _ _)⟩ }
  | .jp _ | .jpV0 _ | .seImm _ _ | .sneImm _ _ | .seReg _ _ | .sneReg _ _ | .skp _ | .sknp _ => s
  | .ldImm x kk => s.setReg x kk
  | .addImm x kk => s.setReg x (addByte (s.reg x) kk)
  | .ldReg x y => s.setReg x (s.reg y)
  | .orReg x y => s.setReg x (s.reg x ||| s.reg y)
  | .andReg x y => s.setReg x (s.reg x &&& s.reg y)
  | .xorReg x y => s.setReg x (s.reg x ^^^ s.reg y)
  | .addReg x y => s.setRegFlag x (addByte (s.reg x) (s.reg y)) (carryFlag (s.reg x) (s.reg y))
  | .sub x y => s.setRegFlag x (subByte (s.reg x) (s.reg y)) (noBorrowFlag (s.reg x) (s.reg y))
  | .shr x _ => s.setRegFlag x (s.reg x >>> 1) (lowBitFlag (s.reg x))
  | .subn x y => s.setRegFlag x (subByte (s.reg y) (s.reg x)) (noBorrowFlag (s.reg y) (s.reg x))
  | .shl x _ => s.setRegFlag x (s.reg x <<< 1) (highBitFlag (s.reg x))
  | .rnd x kk => s.rndUsed.setReg x (s.rndByte &&& kk)
  | .drw x y n =>
    ({ s with fb := (s.blit (s.reg x) (s.reg y) n).fb, redraw := true } : State).setReg vf
      (flagByte (s.blit (s.reg x) (s.reg y) n).collision)
  | .ldI nnn => s.setI (zext16 nnn)
  | .addI x => (s.setI (BitVec.ofNat 16 (indexSum s.i (s.reg x) % 4096))).setReg vf (indexOverflowFlag s.i (s.reg x))
  | .ldF x => s.setI (BitVec.ofNat 16 (fontBase + 5 * (s.reg x).toNat))
  | .ldB x => s.memWriteThree s.i.toNat (bcdDigits (s.reg x))
  | .storeRegs x => { s with mem := (s.storeFirst (x.toNat + 1)).mem }
  | .loadRegs x => { s with v := (s.loadFirst (x.toNat + 1)).v }
  | .ldVxDt x => s.setReg x s.dt
  | .ldVxK x => s.setReg x (BitVec.ofNat 8 (keySelect s.key))
  | .ldDtVx x => { s with dt := s.reg x }
  | .ldStVx x => { s with st := s.reg x }

/-- The diagnostic that a step reports (spec/60_exceptions.md R152 to R154). -/
def diagOf (s : State) : Decoded → Diag
  | .unknown _ => .unknownOpcode
  | .instr .ret => if s.sp.val = 0 then .stackUnderflow else .none
  | .instr (.call _) => if s.sp.val = 16 then .stackOverflow else .none
  | .instr _ => .none

/-- The three ends of a step from `s` whose opcode decodes to `d`. -/
inductive EndsAs (s : State) : Decoded → State → Prop where
  /-- `Fx0A` with no key pressed (spec/40_step_cycle.md R84). -/
  | wait (x : RegIx) (hkey : s.key = 0) : EndsAs s (.instr (.ldVxK x)) s.wait
  /-- A diagnostic, with no other effect (spec/60_exceptions.md R150). -/
  | report {d : Decoded} (hdiag : diagOf s d ≠ .none) : EndsAs s d (s.raise (diagOf s d) d.word)
  /-- The effect of the instruction, then PC, the tick and the outputs (spec/40_step_cycle.md R83, R85, R86). -/
  | complete (i : Instr) (hkey : ∀ x, i = .ldVxK x → s.key ≠ 0) (hdiag : diagOf s (.instr i) = .none) :
    EndsAs s (.instr i) ((effect s i).complete (pcAfter s (.instr i)))

/-! The three ends are what `exec` and `step` answer -/

section
variable {s t : State}

theorem diagOf_ret_eq_none : diagOf s (.instr .ret) = .none ↔ s.sp.val ≠ 0 := by
  simp only [diagOf, ite_eq_right_iff, reduceCtorEq, imp_false, ne_eq]

theorem diagOf_call_eq_none {nnn : Addr12} : diagOf s (.instr (.call nnn)) = .none ↔ s.sp.val ≠ 16 := by
  simp only [diagOf, ite_eq_right_iff, reduceCtorEq, imp_false, ne_eq]

theorem sp_of_report_ret (h : diagOf s (.instr .ret) ≠ .none) : s.sp.val = 0 :=
  by_contra fun h0 => h (diagOf_ret_eq_none.mpr h0)

theorem sp_of_report_call {nnn : Addr12} (h : diagOf s (.instr (.call nnn)) ≠ .none) : s.sp.val = 16 :=
  by_contra fun h16 => h (diagOf_call_eq_none.mpr h16)

/-- A meaning that answers a diagnostic answers nothing else: only `00EE` and `2nnn` have one. -/
theorem exec_of_report {i : Instr} (h : diagOf s (.instr i) ≠ .none) :
    exec i s = .next (s.raise (diagOf s (.instr i)) (encode i)) := by
  cases i
  case ret =>
    have h0 := sp_of_report_ret h
    simp only [exec, execRet, State.pop?, dif_pos h0, diagOf, if_pos h0]
  case call nnn =>
    have h16 := sp_of_report_call h
    have hfull : ¬ s.sp.val < 16 := by omega
    simp only [exec, execCall, State.push?, dif_neg hfull, diagOf, if_pos h16]
  all_goals exact absurd rfl h

/-- A skip goes by its condition, whatever the test `c` that decides it (R98). -/
theorem State.skipIf_eq_complete (s : State) {c : Bool} {p : Prop} [Decidable p] (h : c = true ↔ p) :
    s.skipIf c = s.complete (if p then s.pc + 4 else s.pc + 2) := by
  rw [State.skipIf, if_congr h rfl rfl]
  rfl

theorem State.skipIf_eq_complete_not (s : State) {c : Bool} {p : Prop} [Decidable p] (h : c = true ↔ ¬ p) :
    s.skipIf c = s.complete (if p then s.pc + 2 else s.pc + 4) := by
  rw [s.skipIf_eq_complete h, ite_not]

/-- The target of `Bnnn` as a sum of numbers (R97). -/
theorem setWidth_add_zext16 (b : Byte) (nnn : Addr12) :
    b.setWidth 16 + zext16 nnn = BitVec.ofNat 16 (b.toNat + nnn.toNat) := by
  rw [BitVec.ofNat_add, BitVec.ofNat_toNat, BitVec.ofNat_toNat, zext16]

theorem set_eq_setIfInBounds {n k : Nat} (xs : Vector Word n) (w : Word) (h : k < n) :
    xs.set k w h = xs.setIfInBounds k w := by
  ext j hj
  rw [Vector.getElem_set, Vector.getElem_setIfInBounds]

/-- What a meaning does where it neither waits nor reports. The plain instructions are their effect by definition; the
transfers of control have a target to compute, the stack operations and `Fx0A` a branch to choose. -/
theorem exec_of_complete {i : Instr} (hkey : ∀ x, i = .ldVxK x → s.key ≠ 0) (hdiag : diagOf s (.instr i) = .none) :
    exec i s = .next ((effect s i).complete (pcAfter s (.instr i))) := by
  cases i
  case ret =>
    have h0 := diagOf_ret_eq_none.mp hdiag
    have hlt := s.sp.isLt
    have hk : Fin.ofNat 16 (s.sp.val - 1) = ⟨s.sp.val - 1, by omega⟩ := Fin.ext (Nat.mod_eq_of_lt (by omega))
    simp only [exec, execRet, State.pop?, dif_neg h0, pcAfter, if_neg h0, hk]
    rfl
  case call nnn =>
    have h16 := diagOf_call_eq_none.mp hdiag
    obtain ⟨hfull, -⟩ | ⟨hlt, hpush⟩ := s.push?_spec s.pcNext
    · exact absurd hfull h16
    · have hmin : min (s.sp.val + 1) 16 = s.sp.val + 1 := by omega
      simp only [exec, execCall, hpush, pcAfter, if_neg h16, effect, hmin, zext16, BitVec.ofNat_toNat]
      rw [set_eq_setIfInBounds]
  case jp nnn => exact exec_jp nnn s
  case jpV0 nnn => rw [exec, execJpV0, setWidth_add_zext16]; rfl
  case seImm x kk => exact congrArg Host.Outcome.next (s.skipIf_eq_complete beq_iff_eq)
  case sneImm x kk => exact congrArg Host.Outcome.next (s.skipIf_eq_complete_not bne_iff_ne)
  case seReg x y => exact congrArg Host.Outcome.next (s.skipIf_eq_complete beq_iff_eq)
  case sneReg x y => exact congrArg Host.Outcome.next (s.skipIf_eq_complete_not bne_iff_ne)
  case skp x => exact congrArg Host.Outcome.next (s.skipIf_eq_complete Iff.rfl)
  case sknp x =>
    have hkeyUp : (!s.keyPressed (keyIndex (s.reg x))) = true ↔ ¬ s.keyPressed (keyIndex (s.reg x)) = true := by
      rw [Bool.not_eq_true', Bool.not_eq_true]
    exact congrArg Host.Outcome.next (s.skipIf_eq_complete_not hkeyUp)
  case ldVxK x =>
    have hk := hkey x rfl
    simp only [exec, execLdVxK, pcAfter, if_neg hk]
    rfl
  case storeRegs x =>
    rw [exec, execStoreRegs, State.indexQuirk_off, State.storeFirst_frame]
    rfl
  case loadRegs x =>
    rw [exec, execLoadRegs, State.indexQuirk_off, State.loadFirst_frame]
    rfl
  all_goals rfl

theorem exec_of_endsAs {i : Instr} (h : EndsAs s (.instr i) t) : exec i s = .next t := by
  cases h with
  | wait x hkey => exact if_pos hkey
  | report hdiag => exact exec_of_report hdiag
  | complete i hkey hdiag => exact exec_of_complete hkey hdiag

theorem step_of_endsAs (h : EndsAs s (decode (opAt s)) t) : step s = .next t := by
  cases hd : decode (opAt s) with
  | instr i =>
    rw [hd] at h
    exact (step_of_instr hd).trans (exec_of_endsAs h)
  | unknown op =>
    rw [hd] at h
    cases h
    exact step_of_unknown hd

/-- Every decoded opcode has one of the three ends, in every state. -/
theorem exists_endsAs (s : State) (d : Decoded) : ∃ t, EndsAs s d t := by
  by_cases hdiag : diagOf s d = .none
  case neg => exact ⟨_, .report hdiag⟩
  case pos =>
    cases d with
    | unknown op => nomatch hdiag
    | instr i =>
      by_cases hwait : (∃ x, i = .ldVxK x) ∧ s.key = 0
      case pos =>
        obtain ⟨⟨x, rfl⟩, hkey⟩ := hwait
        exact ⟨_, .wait x hkey⟩
      case neg => exact ⟨_, .complete i (fun x hi hkey => hwait ⟨⟨x, hi⟩, hkey⟩) hdiag⟩

theorem endsAs_of_exec {i : Instr} (h : exec i s = .next t) : EndsAs s (.instr i) t := by
  obtain ⟨u, hu⟩ := exists_endsAs s (.instr i)
  have hut : u = t := Host.Outcome.next.inj ((exec_of_endsAs hu).symm.trans h)
  exact hut ▸ hu

/-- The inversion of a step: every claim about all steps goes by these three cases. -/
theorem endsAs_of_step (h : step s = .next t) : EndsAs s (decode (opAt s)) t := by
  obtain ⟨u, hu⟩ := exists_endsAs s (decode (opAt s))
  have hut : u = t := Host.Outcome.next.inj ((step_of_endsAs hu).symm.trans h)
  exact hut ▸ hu

/-- A rejected call or return goes on at the next instruction, as an unknown opcode does (R13). -/
theorem pcAfter_of_report {d : Decoded} (hdiag : diagOf s d ≠ .none) : pcAfter s d = s.pc + 2 := by
  cases d with
  | unknown op => rfl
  | instr i =>
    cases i
    case ret => exact if_pos (sp_of_report_ret hdiag)
    case call nnn => exact if_pos (sp_of_report_call hdiag)
    all_goals exact absurd rfl hdiag

end

/-- Settles O8: in every state the opcode at PC has one of the three ends (`exists_endsAs`). -/
theorem everyStepAnswersNext : Obligations.EveryStepAnswersNext := by
  intro s
  obtain ⟨t, ht⟩ := exists_endsAs s (decode (opAt s))
  exact ⟨t, step_of_endsAs ht⟩

end Sys2Proof.Machine
end

section
/-! Proofs about every step (spec/10_state.md, spec/40_step_cycle.md, spec/60_exceptions.md): what it keeps, by the
three ends of a step and the fields that the effect of an instruction writes. -/

namespace Sys2Proof.Machine

/-! The fields that the effect of an instruction keeps -/

section
variable (s : State) (i : Instr)

theorem effect_key : (effect s i).key = s.key := by cases i <;> rfl

theorem effect_font : (effect s i).font = s.font := by cases i <;> rfl

theorem effect_diagSeen : (effect s i).diagSeen = s.diagSeen := by cases i <;> rfl

end

section
variable {s : State} {i : Instr}

theorem effect_rndIx (h : ∀ x kk, i ≠ .rnd x kk) : (effect s i).rndIx = s.rndIx := by
  cases i
  case rnd x kk => exact absurd rfl (h x kk)
  all_goals rfl

theorem effect_i (hldI : ∀ nnn, i ≠ .ldI nnn) (haddI : ∀ x, i ≠ .addI x) (hldF : ∀ x, i ≠ .ldF x) :
    (effect s i).i = s.i := by
  cases i
  case ldI nnn => exact absurd rfl (hldI nnn)
  case addI x => exact absurd rfl (haddI x)
  case ldF x => exact absurd rfl (hldF x)
  all_goals rfl

theorem effect_mem (hldB : ∀ x, i ≠ .ldB x) (hstore : ∀ x, i ≠ .storeRegs x) : (effect s i).mem = s.mem := by
  cases i
  case ldB x => exact absurd rfl (hldB x)
  case storeRegs x => exact absurd rfl (hstore x)
  all_goals rfl

theorem effect_stack (h : ∀ nnn, i ≠ .call nnn) : (effect s i).stack = s.stack := by
  cases i
  case call nnn => exact absurd rfl (h nnn)
  all_goals rfl

theorem effect_sp (hcall : ∀ nnn, i ≠ .call nnn) (hret : i ≠ .ret) : (effect s i).sp = s.sp := by
  cases i
  case call nnn => exact absurd rfl (hcall nnn)
  case ret => exact absurd rfl hret
  all_goals rfl

/-- Even a call writes no entry but the one at SP. -/
theorem effect_entry_of_ne {k : Fin 16} (h : k.val ≠ s.sp.val) : (effect s i).entry k = s.entry k := by
  cases i
  case call nnn => exact Vector.getElem_setIfInBounds_ne k.isLt h.symm
  all_goals rfl

theorem regsKept_setReg (s : State) (x : RegIx) (b : Byte) : RegsKept s (s.setReg x b) [x] := by
  obtain ⟨hregs, -⟩ := onlyRegs_setReg s x b
  exact hregs

theorem regsKept_setRegFlag (s : State) (x : RegIx) (b f : Byte) : RegsKept s (s.setRegFlag x b f) [x, vf] := by
  obtain ⟨hregs, -⟩ := onlyRegs_setRegFlag s x b f
  exact hregs

/-- The instructions fall into those that write one register, those that write a result and a flag, those that write
only the flag, the block load, and those that write no register. -/
theorem effect_reg {r : RegIx} (hdest : r ∉ destinations i) (hflag : r ≠ vf ∨ writesFlag i = false) :
    (effect s i).reg r = s.reg r := by
  cases i
  case ldImm | addImm | ldReg | orReg | andReg | xorReg | rnd | ldVxDt | ldVxK => exact regsKept_setReg _ _ _ r hdest
  case addReg | sub | shr | subn | shl =>
    have hvf : r ≠ vf := hflag.resolve_right nofun
    exact regsKept_setRegFlag s _ _ _ r (by simp_all [destinations])
  case drw | addI =>
    have hvf : r ≠ vf := hflag.resolve_right nofun
    exact regsKept_setReg _ vf _ r (by simpa using hvf)
  case loadRegs x =>
    have hr : ¬ r.toNat < x.toNat + 1 := fun hlt =>
      hdest (List.mem_map.mpr ⟨r.toNat, List.mem_range.mpr hlt, by rw [BitVec.ofNat_toNat, BitVec.setWidth_eq]⟩)
    exact (s.loadFirst_reg (by omega) r).trans (if_neg hr)
  all_goals rfl

end

/-! The index of a glyph -/

theorem ldF_index_toNat (b : Byte) : (BitVec.ofNat 16 (fontBase + 5 * b.toNat)).toNat = 0x050 + 5 * b.toNat := by
  have hb := b.isLt
  rw [BitVec.toNat_ofNat, fontBase]
  omega

/-! The invariant (R27) -/

section
variable {s t : State}

/-- Only the instructions that write `I` or memory have something to show. -/
theorem effect_inv {i : Instr} (h : Inv s) : Inv (effect s i) := by
  obtain ⟨hwf, hi⟩ := h
  cases i
  case ldI nnn =>
    have hnnn := nnn.isLt
    exact ⟨hwf, (zext16_toNat nnn).trans_le (by omega)⟩
  case addI x => exact ⟨hwf, (ofNat_mod_4096_toNat _).trans_le (by omega)⟩
  case ldF x => exact ⟨hwf, (ldF_index_toNat _).trans_le (by have := (s.reg x).isLt; omega)⟩
  case ldB x => exact ⟨State.wf_memWrite (State.wf_memWrite (State.wf_memWrite hwf _ _) _ _) _ _, hi⟩
  case storeRegs x =>
    have hstore := State.storeFirst_wf hwf (x.toNat + 1)
    rw [State.storeFirst_frame] at hstore
    exact ⟨hstore, hi⟩
  all_goals exact ⟨hwf, hi⟩

theorem EndsAs.inv {d : Decoded} (h : EndsAs s d t) (hinv : Inv s) : Inv t := by
  cases h with
  | wait x hkey => exact hinv
  | report hdiag => exact hinv
  | complete i hkey hdiag =>
    have heffect : Inv (effect s i) := effect_inv hinv
    exact heffect

end

/-- Settles O9: a wait and a report change neither `I` nor memory; for the other steps, the effect of each instruction
that writes one of the two keeps the invariant (`effect_inv`). -/
theorem stepKeepsInvariant : Obligations.StepKeepsInvariant :=
  fun _ _ hinv h => (endsAs_of_step h).inv hinv

/-- Settles O10: memory lists nothing after reset, and `I` is 0. -/
theorem resetMeetsInvariant : Obligations.ResetMeetsInvariant :=
  fun _ => ⟨rfl, Nat.zero_le _⟩

section
variable {s : State}

theorem State.loadProgram_of_le {rom : List Byte} (h : rom.length ≤ 3584) :
    s.loadProgram rom = .ok (s.storeBytes progBase rom) :=
  if_neg (Nat.not_lt.mpr h)

theorem State.loadProgram_of_gt {rom : List Byte} (h : rom.length > 3584) : s.loadProgram rom = .error .tooLarge :=
  if_pos h

/-- A load stores the ROM, or nothing at all (spec/70_reset_and_hazards.md R173, R174). -/
theorem State.hostOp_loadProgram (s : State) (rom : List Byte) :
    s.hostOp (.loadProgram rom) = if rom.length > 3584 then s else s.storeBytes progBase rom := by
  split
  case isTrue h => rw [State.hostOp, State.loadProgram_of_gt h]
  case isFalse h => rw [State.hostOp, State.loadProgram_of_le (Nat.not_lt.mp h)]

theorem hostOp_inv (h : Inv s) (op : HostOp) : Inv (s.hostOp op) := by
  cases op with
  | reset => exact resetMeetsInvariant s.font
  | loadProgram rom =>
    rw [State.hostOp_loadProgram]
    split
    case isTrue => exact h
    case isFalse =>
      obtain ⟨hwf, hi⟩ := h
      refine ⟨State.storeBytes_wf hwf _ _, ?_⟩
      rwa [State.storeBytes_frame]
  | keyWrite k down => exact h
  | redrawClear => exact h

theorem reachable_inv (h : Reachable s) : Inv s := by
  induction h with
  | reset font => exact resetMeetsInvariant font
  | step _ hstep ih => exact (endsAs_of_step hstep).inv ih
  | host _ op ih => exact hostOp_inv ih op

end

/-- Settles O11: the invariant holds after reset, and every step and every host operation keeps it. -/
theorem reachableStatesMeetInvariant : Obligations.ReachableStatesMeetInvariant :=
  ⟨fun _ op h => hostOp_inv h op, fun _ => reachable_inv⟩

/-! What only some instructions write -/

/-- Settles O13: a wait and a report change no register, an effect only those of `effect_reg`. -/
theorem registersChangeOnlyAsDestinationOrFlag : Obligations.RegistersChangeOnlyAsDestinationOrFlag := by
  intro i s t h r hdest hflag
  cases endsAs_of_exec h with
  | wait x hkey => rfl
  | report hdiag => rfl
  | complete i hkey hdiag => exact effect_reg hdest hflag

theorem memKept_of_mem_font {s t : State} (hm : t.mem = s.mem) (hf : t.font = s.font) : MemKept s t :=
  fun a => by rw [State.memRead, hm, hf, State.memRead]

theorem entry_of_stack {s t : State} (h : t.stack = s.stack) (k : Fin 16) : t.entry k = s.entry k := by
  rw [State.entry, State.entry, getElem_congr_coll h]

section
variable {s t : State} {d : Decoded}

theorem EndsAs.memKept (h : EndsAs s d t) (hldB : ∀ x, d ≠ .instr (.ldB x)) (hstore : ∀ x, d ≠ .instr (.storeRegs x)) :
    MemKept s t := by
  cases h with
  | wait x hkey => exact fun _ => rfl
  | report hdiag => exact fun _ => rfl
  | complete i hkey hdiag =>
    exact memKept_of_mem_font (effect_mem (fun x hi => hldB x (congrArg _ hi)) fun x hi => hstore x (congrArg _ hi))
      (effect_font s i)

theorem EndsAs.entry (h : EndsAs s d t) (hcall : ∀ nnn, d ≠ .instr (.call nnn)) (k : Fin 16) :
    t.entry k = s.entry k := by
  cases h with
  | wait x hkey => rfl
  | report hdiag => rfl
  | complete i hkey hdiag => exact entry_of_stack (effect_stack fun nnn hi => hcall nnn (congrArg _ hi)) k

theorem EndsAs.entry_of_ne (h : EndsAs s d t) {k : Fin 16} (hk : k.val ≠ s.sp.val) : t.entry k = s.entry k := by
  cases h with
  | wait x hkey => rfl
  | report hdiag => rfl
  | complete i hkey hdiag => exact effect_entry_of_ne hk

theorem EndsAs.sp (h : EndsAs s d t) (hcall : ∀ nnn, d ≠ .instr (.call nnn)) (hret : d ≠ .instr .ret) :
    t.sp = s.sp := by
  cases h with
  | wait x hkey => rfl
  | report hdiag => rfl
  | complete i hkey hdiag => exact effect_sp (fun nnn hi => hcall nnn (congrArg _ hi)) fun hi => hret (congrArg _ hi)

theorem EndsAs.key (h : EndsAs s d t) : t.key = s.key := by
  cases h with
  | wait x hkey => rfl
  | report hdiag => rfl
  | complete i hkey hdiag => exact effect_key s i

theorem EndsAs.rndIx (h : EndsAs s d t) (hrnd : ∀ x kk, d ≠ .instr (.rnd x kk)) : t.rndIx = s.rndIx := by
  cases h with
  | wait x hkey => rfl
  | report hdiag => rfl
  | complete i hkey hdiag => exact effect_rndIx fun x kk hi => hrnd x kk (congrArg _ hi)

theorem EndsAs.font (h : EndsAs s d t) : t.font = s.font := by
  cases h with
  | wait x hkey => rfl
  | report hdiag => rfl
  | complete i hkey hdiag => exact effect_font s i

theorem EndsAs.i (h : EndsAs s d t) (hldI : ∀ nnn, d ≠ .instr (.ldI nnn)) (haddI : ∀ x, d ≠ .instr (.addI x))
    (hldF : ∀ x, d ≠ .instr (.ldF x)) : t.i = s.i := by
  cases h with
  | wait x hkey => rfl
  | report hdiag => rfl
  | complete i hkey hdiag =>
    exact effect_i (fun nnn hi => hldI nnn (congrArg _ hi)) (fun x hi => haddI x (congrArg _ hi))
      fun x hi => hldF x (congrArg _ hi)

end

/-- Settles O20: the list of memory is written by the effect of the two stores only. -/
theorem onlyStoresWriteMemory : Obligations.OnlyStoresWriteMemory :=
  fun _ _ h => (endsAs_of_step h).memKept

/-- Settles O21: a wait and a report leave the stack and SP alone, and so do the effects of all instructions but these
two; a call writes no other entry. -/
theorem onlyCallAndReturnTouchStack : Obligations.OnlyCallAndReturnTouchStack :=
  fun _ _ h =>
    have hends := endsAs_of_step h
    ⟨hends.entry, fun _ => hends.entry_of_ne, hends.sp⟩

theorem hostOp_font (s : State) (op : HostOp) : (s.hostOp op).font = s.font := by
  cases op with
  | loadProgram rom =>
    rw [State.hostOp_loadProgram]
    split
    case isTrue => rfl
    case isFalse => rw [State.storeBytes_frame]
  | reset => rfl
  | keyWrite k down => rfl
  | redrawClear => rfl

/-- Settles O22: no effect writes the keypad or the font table, only that of `Cxkk` counts a random byte; a load, the
only host operation that is not a record update, writes memory alone. -/
theorem stepsReadInputsOnly : Obligations.StepsReadInputsOnly :=
  ⟨fun _ _ h =>
    have hends := endsAs_of_step h
    ⟨hends.key, hends.rndIx, hends.font⟩, hostOp_font⟩

/-- Settles O24: `I` is written by the effect of these three instructions only, the quirk being off in the effect of the
two block transfers. -/
theorem onlyIndexInstructionsWriteI : Obligations.OnlyIndexInstructionsWriteI :=
  fun _ _ h => (endsAs_of_step h).i

/-! The flags (R11) -/

/-- An instruction that writes `VF` last, with a flag of at most 1. -/
theorem exec_vf {i : Instr} {s e : State} {f : Byte} (h : exec i s = .next (e.setReg vf f).advance)
    (hf : f.toNat ≤ 1) : ∃ t, exec i s = .next t ∧ (t.reg 0xF#4 = 0 ∨ t.reg 0xF#4 = 1) := by
  have hvf : (e.setReg vf f).advance.reg 0xF#4 = f := e.reg_setReg_self vf f
  refine ⟨_, h, ?_⟩
  rw [hvf, ← BitVec.toNat_inj, ← BitVec.toNat_inj]
  exact Nat.le_one_iff_eq_zero_or_eq_one.mp hf

theorem flagByte_le_one (c : Bool) : (flagByte c).toNat ≤ 1 := by
  cases c <;> decide

/-- Settles O12: each of the seven writes `VF` last, whatever its destination, with a comparison or with one bit of its
operand. -/
theorem flagInstructionsLeaveVFZeroOrOne : Obligations.FlagInstructionsLeaveVFZeroOrOne := by
  intro i s hflag
  cases i
  case addReg | sub | subn | drw | addI => exact exec_vf rfl (flagByte_le_one _)
  case shr x y => exact exec_vf rfl (by rw [lowBitFlag_toNat]; omega)
  case shl x y =>
    have hx := (s.reg x).isLt
    exact exec_vf rfl (by rw [highBitFlag_toNat]; omega)
  all_goals nomatch hflag

end Sys2Proof.Machine
end

section
/-! Proofs about how a step ends (spec/40_step_cycle.md R83 to R86, spec/60_exceptions.md R150 to R158): PC, the timers,
the outputs, and what of the state they do not depend on. -/

namespace Sys2Proof.Machine

section
variable {s t : State} {d : Decoded}

/-! PC (spec/10_state.md R13) -/

theorem EndsAs.pc (h : EndsAs s d t) : t.pc = pcAfter s d := by
  cases h with
  | wait x hkey => exact (if_pos hkey).symm
  | report hdiag => exact (pcAfter_of_report hdiag).symm
  | complete i hkey hdiag => rfl

/-! The timers (spec/10_state.md R16, R17) -/

/-- The value of DT when the effect of the opcode is done. -/
def dtAfter (s : State) : Decoded → Byte
  | .instr (.ldDtVx x) => s.reg x
  | _ => s.dt

/-- The value of ST when the effect of the opcode is done. -/
def stAfter (s : State) : Decoded → Byte
  | .instr (.ldStVx x) => s.reg x
  | _ => s.st

theorem effect_dt (s : State) (i : Instr) : (effect s i).dt = dtAfter s (.instr i) := by
  cases i <;> rfl

theorem effect_st (s : State) (i : Instr) : (effect s i).st = stAfter s (.instr i) := by
  cases i <;> rfl

theorem dtAfter_of_report (hdiag : diagOf s d ≠ .none) : dtAfter s d = s.dt := by
  unfold dtAfter
  split
  case h_1 => exact absurd rfl hdiag
  case h_2 => rfl

theorem stAfter_of_report (hdiag : diagOf s d ≠ .none) : stAfter s d = s.st := by
  unfold stAfter
  split
  case h_1 => exact absurd rfl hdiag
  case h_2 => rfl

/-- A step that did not wait ticks both timers after the effect. -/
theorem EndsAs.tick (h : EndsAs s d t) (hstalled : t.out.stalled = false) :
    t.dt = tickTimer (dtAfter s d) ∧ t.st = tickTimer (stAfter s d) ∧ t.out.beep = soundEdge (stAfter s d) := by
  cases h with
  | wait x hkey => nomatch hstalled
  | report hdiag =>
    rw [dtAfter_of_report hdiag, stAfter_of_report hdiag]
    exact ⟨rfl, rfl, rfl⟩
  | complete i hkey hdiag =>
    rw [← effect_dt, ← effect_st]
    exact ⟨rfl, rfl, rfl⟩

theorem EndsAs.reads_dt (h : EndsAs s d t) {x : RegIx} (hd : d = .instr (.ldVxDt x)) : t.reg x = s.dt := by
  subst hd
  cases h with
  | report hdiag => exact absurd rfl hdiag
  | complete i hkey hdiag => exact s.reg_setReg_self x s.dt

theorem soundEdge_iff_toNat (b : Byte) : soundEdge b = true ↔ b.toNat = 1 := by
  rw [soundEdge_iff, ← BitVec.toNat_inj]
  rfl

/-! The outputs (spec/10_state.md R24) -/

theorem EndsAs.stalled_iff (h : EndsAs s d t) : t.out.stalled = true ↔ s.key = 0 ∧ ∃ x, d = .instr (.ldVxK x) := by
  cases h with
  | wait x hkey => exact ⟨fun _ => ⟨hkey, x, rfl⟩, fun _ => rfl⟩
  | report hdiag =>
    refine ⟨nofun, ?_⟩
    rintro ⟨-, x, rfl⟩
    exact absurd rfl hdiag
  | complete i hkey hdiag =>
    refine ⟨nofun, ?_⟩
    rintro ⟨hkey0, x, hi⟩
    exact absurd hkey0 (hkey x (Decoded.instr.inj hi))

theorem EndsAs.diag (h : EndsAs s d t) : t.out.diag = diagOf s d := by
  cases h with
  | wait x hkey => rfl
  | report hdiag => rfl
  | complete i hkey hdiag => exact hdiag.symm

theorem EndsAs.diagInfo (h : EndsAs s d t) : t.out.diagInfo = if t.out.diag = .none then 0 else d.word := by
  cases h with
  | wait x hkey => rfl
  | report hdiag => exact (if_neg hdiag).symm
  | complete i hkey hdiag => rfl

/-- The sticky record is set by a report and by nothing else. -/
theorem EndsAs.clean_iff (h : EndsAs s d t) : Clean t ↔ Clean s ∧ t.out.diag = .none := by
  cases h with
  | wait x hkey => exact (and_iff_left rfl).symm
  | report hdiag =>
    simp only [Clean, State.raise_diagSeen, State.raise_out, Bool.or_eq_false_iff, decide_eq_false_iff_not, ne_eq,
      not_not]
  | complete i hkey hdiag =>
    rw [Clean, State.complete_diagSeen, effect_diagSeen]
    exact (and_iff_left rfl).symm

theorem EndsAs.reports (h : EndsAs s d t) (hne : t.out.diag ≠ .none) : Reports s t t.out.diag d.word := by
  cases h with
  | wait x hkey => exact absurd rfl hne
  | report hdiag => exact reports_raise s _ _
  | complete i hkey hdiag => exact absurd rfl hne

/-! Which diagnostic (spec/60_exceptions.md R151) -/

theorem diagOf_eq_unknownOpcode : diagOf s d = .unknownOpcode ↔ ∃ op, d = .unknown op := by
  unfold diagOf
  split
  case h_1 op => exact ⟨fun _ => ⟨op, rfl⟩, fun _ => rfl⟩
  all_goals simp [ite_eq_iff]

theorem diagOf_eq_stackOverflow : diagOf s d = .stackOverflow ↔ s.sp.val = 16 ∧ ∃ nnn, d = .instr (.call nnn) := by
  unfold diagOf
  split
  all_goals simp_all [ite_eq_iff]

theorem diagOf_eq_stackUnderflow : diagOf s d = .stackUnderflow ↔ s.sp.val = 0 ∧ d = .instr .ret := by
  unfold diagOf
  split
  all_goals simp_all [ite_eq_iff]

theorem no_row_iff_unknown {op : Word} : (∀ i, ¬ matchesRowOf op i) ↔ ∃ w, decode op = .unknown w := by
  refine ⟨fun h => ⟨op, decode_unknown_of_no_row h⟩, ?_⟩
  rintro ⟨w, hw⟩ i hi
  obtain ⟨j, hj, -⟩ := exists_decode_of_row hi
  exact nomatch hw.symm.trans hj

theorem decode_eq_ret_iff {op : Word} : decode op = .instr .ret ↔ op = 0x00EE#16 := by
  refine ⟨fun h => (encode_of_decode h).symm, ?_⟩
  rintro rfl
  exact decode_encode .ret

end

/-- Settles O23: `pcAfter` is PC of each of the three ends (`EndsAs.pc`), and 0x0200 after reset by definition. -/
theorem nextPcByClass : Obligations.NextPcByClass :=
  ⟨fun _ _ h => (endsAs_of_step h).pc, fun _ => rfl⟩

/-- Settles O14: the tick counts down what the effect left in each timer (`EndsAs.tick`), and `Fx07` has read DT by
then. -/
theorem completedStepsTickTimers : Obligations.CompletedStepsTickTimers := by
  intro s t h hstalled
  have hends := endsAs_of_step h
  obtain ⟨hdt, hst, hbeep⟩ := hends.tick hstalled
  refine ⟨fun dt hval => ?_, fun st hval => ?_, fun x => hends.reads_dt⟩
  · obtain rfl : dt = dtAfter s (decode (opAt s)) := hval
    rw [hdt, tickTimer_toNat]
  · obtain rfl : st = stAfter s (decode (opAt s)) := hval
    rw [hst, hbeep, tickTimer_toNat]
    exact ⟨rfl, soundEdge_iff_toNat _⟩

/-- Settles O16: only the wait sets `stalled`, and it is the end of a step under just these conditions. -/
theorem stalledExactlyOnWaitSteps : Obligations.StalledExactlyOnWaitSteps :=
  fun _ _ h => (endsAs_of_step h).stalled_iff

/-- Settles O15: the step waits, and the state it answers has the same opcode at PC and the same keypad, so it waits
again. -/
theorem waitStepChangesNothing : Obligations.WaitStepChangesNothing := by
  intro s x hd hkey
  have hwait : ∀ u : State, decode (opAt u) = .instr (.ldVxK x) → u.key = 0 → step u = .next u.wait :=
    fun u hu hk => step_of_endsAs (hu ▸ .wait x hk)
  exact ⟨s.wait, hwait s hd hkey, rfl, hwait s.wait hd hkey⟩

/-- Settles O17: the diagnostic is `diagOf`, whose three values are told apart by the decoded opcode and SP; that the
opcode decodes to `UNKNOWN` or to `RET` is then said of the word itself. -/
theorem diagnosticsExactlyWhenRaised : Obligations.DiagnosticsExactlyWhenRaised := by
  intro s t h
  have hends := endsAs_of_step h
  refine ⟨?_, ?_, ?_, ?_, hends.clean_iff⟩
  · rw [hends.diag, diagOf_eq_unknownOpcode, no_row_iff_unknown]
  · rw [hends.diag, diagOf_eq_stackOverflow]
  · rw [hends.diag, diagOf_eq_stackUnderflow, decode_eq_ret_iff]
  · rw [hends.diagInfo, decode_word]

/-- Settles O18: of the three ends of a step only the report has a diagnostic. -/
theorem diagnosticStepOnlyAdvances : Obligations.DiagnosticStepOnlyAdvances := by
  intro s t h hne
  have hreports := (endsAs_of_step h).reports hne
  rwa [decode_word] at hreports

/-! REDRAW and ST (spec/70_reset_and_hazards.md R185) -/

/-- `s` with other values of REDRAW and ST, the two pieces of state a program cannot read. -/
def State.withUnreadable (s : State) (b : Bool) (st : Byte) : State := { s with redraw := b, st := st }

section
variable (s : State) (b : Bool) (st : Byte)

theorem State.storeFirst_withUnreadable (n : Nat) :
    (s.withUnreadable b st).storeFirst n = (s.storeFirst n).withUnreadable b st := by
  induction n with
  | zero => rfl
  | succ n ih =>
    rw [State.storeFirst, ih, State.storeFirst, State.storeFirst_frame]
    rfl

theorem State.loadFirst_withUnreadable (n : Nat) :
    (s.withUnreadable b st).loadFirst n = (s.loadFirst n).withUnreadable b st := by
  induction n with
  | zero => rfl
  | succ n ih =>
    rw [State.loadFirst, ih]
    rfl

theorem diagOf_withUnreadable (d : Decoded) : diagOf (s.withUnreadable b st) d = diagOf s d := by
  unfold diagOf
  split <;> rfl

theorem pcAfter_withUnreadable (d : Decoded) : pcAfter (s.withUnreadable b st) d = pcAfter s d := by
  unfold pcAfter
  split <;> rfl

/-- No effect reads REDRAW or ST. -/
theorem effect_withUnreadable (i : Instr) :
    ∃ b' st', effect (s.withUnreadable b st) i = (effect s i).withUnreadable b' st' := by
  cases i
  case storeRegs x =>
    refine ⟨b, st, ?_⟩
    rw [effect, State.storeFirst_withUnreadable]
    rfl
  case loadRegs x =>
    refine ⟨b, st, ?_⟩
    rw [effect, State.loadFirst_withUnreadable]
    rfl
  all_goals exact ⟨_, _, rfl⟩

/-- Whatever REDRAW and ST are, the step has the same one of the three ends. -/
theorem EndsAs.withUnreadable {t : State} {d : Decoded} (h : EndsAs s d t) :
    ∃ t', EndsAs (s.withUnreadable b st) d t' ∧
      t' = { t with redraw := t'.redraw, st := t'.st, out := { t.out with beep := t'.out.beep } } := by
  cases h with
  | wait x hkey => exact ⟨_, .wait x hkey, rfl⟩
  | report hdiag =>
    refine ⟨_, .report (by rwa [diagOf_withUnreadable]), ?_⟩
    rw [diagOf_withUnreadable]
    rfl
  | complete i hkey hdiag =>
    obtain ⟨b', st', heffect⟩ := effect_withUnreadable s b st i
    refine ⟨_, .complete i hkey (by rwa [diagOf_withUnreadable]), ?_⟩
    rw [heffect, pcAfter_withUnreadable]
    rfl

end

/-- Settles O25: neither the choice of the end of a step nor PC nor the diagnostic reads REDRAW or ST, and its effect
differs in these two alone (`EndsAs.withUnreadable`). -/
theorem redrawAndSoundTimerAreUnreadable : Obligations.RedrawAndSoundTimerAreUnreadable := by
  intro s t b st h
  obtain ⟨t', hends, ht'⟩ := (endsAs_of_step h).withUnreadable s b st
  exact ⟨t', step_of_endsAs hends, ht'⟩

end Sys2Proof.Machine
end

section
/-! Proofs about control flow (spec/41_control_flow.md): call and return, the jump with offset, the jump to itself. -/

namespace Sys2Proof.Machine

/-- A transfer of control that writes only the stack and SP. -/
theorem completes_kept_setStack (s : State) (stack : Vector Word 16) (sp : Fin 17) {next : Word} {t : State}
    (ht : t = ({ s with stack := stack, sp := sp } : State).complete next) :
    Completes s t next ∧ RegsKept s t [] ∧ t.i = s.i ∧ MemKept s t ∧ ScreenKept s t ∧ InputsKept s t := by
  subst ht
  exact ⟨completes_complete next rfl rfl, fun _ _ => rfl, rfl, fun _ => rfl, screenKept_of_fb_redraw rfl rfl,
    rfl, rfl, rfl⟩

section
variable {s : State}

theorem exec_ret_empty (h0 : s.sp.val = 0) : exec .ret s = .next (s.raise .stackUnderflow 0x00EE#16) := by
  have hdiag : diagOf s (.instr .ret) = .stackUnderflow := if_pos h0
  have hreport := exec_of_report (s := s) (i := .ret) (by rw [hdiag]; decide)
  rwa [hdiag] at hreport

theorem exec_ret_pop {k : Fin 16} (hsp : s.sp.val = k.val + 1) :
    exec .ret s = .next ((effect s .ret).complete (s.entry k)) := by
  have h0 : s.sp.val ≠ 0 := by omega
  have hk : Fin.ofNat 16 (s.sp.val - 1) = k := by rw [hsp, Nat.add_sub_cancel, Fin.ofNat_val_eq_self]
  have hpc : pcAfter s (.instr .ret) = s.entry k := (if_neg h0).trans (congrArg _ hk)
  rw [exec_of_complete (i := .ret) nofun (diagOf_ret_eq_none.mpr h0), hpc]

end

/-- Settles O26: with an entry in use the return completes at the entry below SP and writes SP alone; with none it only
reports. -/
theorem returnPopsOrReports : Obligations.ReturnPopsOrReports := by
  refine ⟨decode_encode .ret, fun s k hsp => ?_, fun s h0 => ⟨_, exec_ret_empty h0, reports_raise s _ _⟩⟩
  refine ⟨_, exec_ret_pop hsp, ?_, fun _ => rfl, completes_kept_setStack s _ _ rfl⟩
  exact (congrArg (· - 1) hsp).trans (Nat.add_sub_cancel _ 1)

section
variable {s : State} {nnn : Addr12}

theorem exec_call_full (h16 : s.sp.val = 16) :
    exec (.call nnn) s = .next (s.raise .stackOverflow (encode (.call nnn))) := by
  have hdiag : diagOf s (.instr (.call nnn)) = .stackOverflow := if_pos h16
  have hreport := exec_of_report (s := s) (i := .call nnn) (by rw [hdiag]; decide)
  rwa [hdiag] at hreport

theorem exec_call_push (h16 : s.sp.val < 16) :
    exec (.call nnn) s = .next ((effect s (.call nnn)).complete (BitVec.ofNat 16 nnn.toNat)) := by
  have hne : s.sp.val ≠ 16 := by omega
  have hpc : pcAfter s (.instr (.call nnn)) = BitVec.ofNat 16 nnn.toNat := if_neg hne
  rw [exec_of_complete (i := .call nnn) nofun (diagOf_call_eq_none.mpr hne), hpc]

end

/-- Settles O28: below 16 entries the call completes at its target, writing the entry at SP, and counts it; with 16 it
only reports, with its own word. -/
theorem callPushesOrReports : Obligations.CallPushesOrReports := by
  refine fun nnn => ⟨decode_encode (.call nnn), fun s k hsp => ?_,
    fun s h16 => ⟨_, exec_call_full h16, reports_raise s _ _⟩⟩
  have hk := k.isLt
  have hentry : ∀ j, (effect s (.call nnn)).entry j = if s.sp.val = j.val then s.pc + 2 else s.entry j :=
    fun j => Vector.getElem_setIfInBounds j.isLt
  refine ⟨_, exec_call_push (by omega), ?_, (hentry k).trans (if_pos hsp), fun j hj => ?_,
    completes_kept_setStack s _ _ rfl⟩
  · show min (s.sp.val + 1) 16 = k.val + 1
    omega
  · have hne : s.sp.val ≠ j.val := fun h => hj (Fin.ext (h.symm.trans hsp))
    exact (hentry j).trans (if_neg hne)

/-- Settles O29: the call leaves the address of the next instruction below the new SP, where the return takes it
(`callPushesOrReports`, `returnPopsOrReports`). -/
theorem returnAfterCallResumes : Obligations.ReturnAfterCallResumes := by
  intro nnn s hsp
  obtain ⟨-, hcall, -⟩ := callPushesOrReports nnn
  obtain ⟨-, hret, -⟩ := returnPopsOrReports
  obtain ⟨t, ht, htsp, htop, -, -, htregs, -, htmem, -⟩ := hcall s ⟨s.sp.val, hsp⟩ rfl
  obtain ⟨u, hu, husp, -, ⟨hpc, -⟩, huregs, -, humem, -⟩ := hret t ⟨s.sp.val, hsp⟩ htsp
  exact ⟨t, u, ht, hu, hpc.trans htop, Fin.ext husp, fun r hr => (huregs r hr).trans (htregs r hr),
    fun a => (humem a).trans (htmem a)⟩

/-- Settles O32: the target is a sum of two numbers that does not reach 65536. -/
theorem jumpWithOffset : Obligations.JumpWithOffset := by
  intro nnn s
  obtain ⟨hcompletes, honly⟩ := completes_onlyRegs_complete s ((s.reg 0x0#4).setWidth 16 + zext16 nnn)
  refine ⟨decode_encode (.jpV0 nnn), _, rfl, ?_, hcompletes, honly⟩
  have hreg := (s.reg 0x0#4).isLt
  have hnnn := nnn.isLt
  rw [State.complete_pc, setWidth_add_zext16, BitVec.toNat_ofNat]
  omega

/-! The jump to itself (spec/40_step_cycle.md R89) -/

/-- The word of R89 is the one that encodes the jump to PC. -/
theorem spin_word {pc : Word} (h : pc.toNat ≤ 0xFFF) :
    0x1000#16 ||| (pc &&& 0x0FFF#16) = encode (.jp (pc.setWidth 12)) := by
  have hmask : pc.toNat &&& 0xFFF = pc.toNat :=
    (Nat.and_two_pow_sub_one_eq_mod pc.toNat 12).trans (Nat.mod_eq_of_lt (by omega))
  have hor : 0x1000 + pc.toNat = 0x1000 ||| pc.toNat := Nat.two_pow_add_eq_or_of_lt (i := 12) (by omega) 1
  apply BitVec.eq_of_toNat_eq
  calc (0x1000#16 ||| (pc &&& 0x0FFF#16)).toNat
      = 0x1000 ||| (pc.toNat &&& 0xFFF) := by rw [BitVec.toNat_or, BitVec.toNat_and]; rfl
    _ = 0x1000 + pc.toNat % 4096 := by rw [hmask, ← hor, Nat.mod_eq_of_lt (by omega)]
    _ = (encode (.jp (pc.setWidth 12))).toNat := by rw [encode, packNNN_toNat, BitVec.toNat_setWidth]; rfl

theorem step_spinning {s : State} (h : Spinning s) : step s = .next (s.complete s.pc) := by
  obtain ⟨hword, hpc⟩ := h
  have hd : decode (opAt s) = .instr (.jp (s.pc.setWidth 12)) := by
    rw [opAt_eq_fetch, hword, spin_word hpc, decode_encode]
  have htarget : BitVec.ofNat 16 (s.pc.setWidth 12).toNat = s.pc := by
    apply BitVec.eq_of_toNat_eq
    rw [BitVec.toNat_ofNat, BitVec.toNat_setWidth]
    omega
  rw [step_of_instr hd, exec_jp, htarget]

/-- Settles O60: the opcode is the jump to PC, which completes at PC, where the same opcode stands again. -/
theorem jumpToSelfIsStable : Obligations.JumpToSelfIsStable := by
  intro s hspin
  exact ⟨_, step_spinning hspin, hspin, completes_onlyRegs_complete s s.pc⟩

end Sys2Proof.Machine
end

section
/-! Proofs about the block transfers and the glyph address (spec/43_index_memory.md), and about the random byte
(spec/42_load_arith_logic.md R111). -/

namespace Sys2Proof.Machine

/-- An address counts only by its low 12 bits (spec/20_memory.md R41). -/
theorem State.memRead_congr (s : State) {a a' : Nat} (h : a % 4096 = a' % 4096) : s.memRead a = s.memRead a' :=
  congrArg (Memory.read s.font s.mem) h

theorem exec_storeRegs (x : RegIx) (s : State) :
    exec (.storeRegs x) s = .next (s.storeFirst (x.toNat + 1)).advance := by
  rw [exec, execStoreRegs, State.indexQuirk_off]

theorem exec_loadRegs (x : RegIx) (s : State) :
    exec (.loadRegs x) s = .next (s.loadFirst (x.toNat + 1)).advance := by
  rw [exec, execLoadRegs, State.indexQuirk_off]

/-- Settles O44: what the `x + 1` stores write and what they do not reach is said by the laws of `storeFirst`; they
change memory alone. -/
theorem storeRegisters : Obligations.StoreRegisters := by
  refine fun x s => ⟨decode_Fxkk x 0x55#8 .storeRegs, fun hwf =>
    ⟨_, exec_storeRegs x s, fun k hk => ?_, fun a ha => ?_, ?_⟩⟩
  · have hx := x.isLt
    have hbyte := State.storeFirst_memRead hwf (n := x.toNat + 1) (by omega) (Nat.lt_succ_of_le hk)
    rwa [BitVec.ofNat_toNat, BitVec.setWidth_eq] at hbyte
  · exact s.storeFirst_memRead_other fun k hk => (ha k (Nat.le_of_lt_succ hk)).symm
  · exact completes_kept_setMem s _ (congrArg State.advance (s.storeFirst_frame _))

/-- Changing the registers and advancing has no other effect. -/
theorem completes_kept_setV (s : State) (v : Vector Byte 16) {t : State}
    (ht : t = ({ s with v := v } : State).advance) :
    Completes s t (s.pc + 2) ∧ t.i = s.i ∧ StackKept s t ∧ MemKept s t ∧ ScreenKept s t ∧ InputsKept s t := by
  subst ht
  exact ⟨completes_advance rfl rfl rfl, rfl, ⟨rfl, fun _ => rfl⟩, fun _ => rfl, screenKept_of_fb_redraw rfl rfl,
    rfl, rfl, rfl⟩

/-- Settles O45: what the `x + 1` loads leave in each register is the law of `loadFirst`; they change the registers
alone. -/
theorem loadRegisters : Obligations.LoadRegisters := by
  refine fun x s => ⟨decode_Fxkk x 0x65#8 .loadRegs, _, exec_loadRegs x s, fun k => ?_,
    completes_kept_setV s _ (congrArg State.advance (s.loadFirst_frame _))⟩
  have hx := x.isLt
  rw [State.advance_reg, s.loadFirst_reg (by omega), if_congr Nat.lt_succ_iff rfl rfl]
  rfl

/-- Settles O46: the load reads the bytes that the store wrote, at the same `I` and from the same memory, and no
register and no PC takes part in where they are. -/
theorem storeThenLoadRestores : Obligations.StoreThenLoadRestores := by
  intro x s hwf
  obtain ⟨-, hstore⟩ := storeRegisters x s
  obtain ⟨t, ht, hbytes, -, -, -, hi, -⟩ := hstore hwf
  refine ⟨t, ht, fun v pc => ?_⟩
  obtain ⟨-, u, hu, hregs, -⟩ := loadRegisters x { t with v := v, pc := pc }
  refine ⟨u, hu, fun k hk => ?_⟩
  calc u.reg k
      = t.memRead (t.i.toNat + k.toNat) := (hregs k).trans (if_pos hk)
    _ = s.reg k := by rw [hi, hbytes k hk]

/-- Settles O47: the two bytes at the new PC are, mod 4096, the first two of the block. -/
theorem storeIsSeenByNextFetch : Obligations.StoreIsSeenByNextFetch := by
  intro x s hwf hx hpc
  obtain ⟨-, hstore⟩ := storeRegisters x s
  obtain ⟨t, ht, hbytes, -, ⟨htpc, -⟩, -⟩ := hstore hwf
  have hpc2 : t.pc.toNat % 4096 = s.i.toNat % 4096 := by
    rw [htpc, ← hpc, BitVec.toNat_add]
    exact Nat.mod_mod_of_dvd _ (by decide)
  have hhi : t.memRead t.pc.toNat = s.reg 0#4 :=
    (t.memRead_congr hpc2).trans (hbytes 0#4 (Nat.zero_le _))
  have hlo : t.memRead (t.pc.toNat + 1) = s.reg 1#4 :=
    (t.memRead_congr (Nat.ModEq.add_right 1 hpc2)).trans (hbytes 1#4 hx)
  refine ⟨t, ht, ?_⟩
  rw [opAt_eq_fetch, State.fetch_toNat, hhi, hlo]

/-- Settles O41: the instruction sets `I` to the address of the glyph and then only completes; the bytes there after
reset are those of the font table (`resetState`). -/
theorem loadIndexFont : Obligations.LoadIndexFont := by
  refine ⟨fun x s => ?_, fun font d hd r hr => ?_⟩
  · obtain ⟨hc, honly⟩ := completes_onlyRegs_complete
      (s.setI (BitVec.ofNat 16 (fontBase + 5 * (s.reg x).toNat))) s.pcNext
    obtain ⟨hi, hkept⟩ := kept_of_onlyRegs_setI honly
    exact ⟨decode_Fxkk x 0x29#8 .ldF, _, rfl, hi ▸ ldF_index_toNat _, hc, hkept⟩
  · obtain ⟨-, hreset⟩ := resetState
    obtain ⟨-, -, -, -, -, -, -, hfont, -⟩ := hreset font _ rfl
    rw [Nat.add_assoc]
    exact hfont _ (by omega)

/-- Settles O39: the draw is counted first, then the instruction writes one register, with the masked byte. -/
theorem randomByteIsMasked : Obligations.RandomByteIsMasked := by
  intro x kk s
  obtain ⟨hc, hregs, hi, hstack, hmem, hscreen, hkey, hrnd, hfont⟩ :=
    completes_onlyRegs_setReg s.rndUsed x (s.rndByte &&& kk)
  refine ⟨decode_encode (.rnd x kk), _, rfl, fun j => ?_, hrnd, hc, hregs, hi, hstack, hmem, hscreen, hkey, hfont⟩
  rw [State.advance_reg, State.reg_setReg_self, BitVec.getLsbD_and, State.rndByte]

end Sys2Proof.Machine
end

section
/-! Proofs about the display (spec/44_display.md): the clear, the draw, and the draw repeated. -/

namespace Sys2Proof.Machine

/-- Settles O48: the clear writes the framebuffer and REDRAW, whatever they were, and advances. -/
theorem clearScreen : Obligations.ClearScreen :=
  ⟨decode_encode .cls, fun _ => ⟨_, rfl, Screen.pixel_blank, rfl, completes_advance rfl rfl rfl, fun _ _ => rfl, rfl,
    ⟨rfl, fun _ => rfl⟩, fun _ => rfl, rfl, rfl, rfl⟩⟩

/-! The blitter in the words of the statements -/

section
variable {s : State} {x y : RegIx} {n : Nib} {px : Fin 64} {py : Fin 32}

theorem blit_pixel_of_covers (h : Covers s x y n px py) :
    Screen.pixel (s.blit (s.reg x) (s.reg y) n).fb px py = !s.pixel px py := by
  obtain ⟨hpixel, -⟩ := s.blit_spec (s.reg x) (s.reg y) n
  rw [hpixel, (spriteCovers_iff_covers s x y n px py).mpr h, Bool.xor_true]

theorem blit_pixel_of_not_covers (h : ¬ Covers s x y n px py) :
    Screen.pixel (s.blit (s.reg x) (s.reg y) n).fb px py = s.pixel px py := by
  obtain ⟨hpixel, -⟩ := s.blit_spec (s.reg x) (s.reg y) n
  rw [← spriteCovers_iff_covers, Bool.not_eq_true] at h
  rw [hpixel, h, Bool.xor_false]

theorem blit_collision_iff :
    (s.blit (s.reg x) (s.reg y) n).collision = true ↔ ∃ px py, Covers s x y n px py ∧ s.pixel px py = true := by
  obtain ⟨-, hcollision⟩ := s.blit_spec (s.reg x) (s.reg y) n
  rw [hcollision]
  exact exists₂_congr fun px py => and_comm.trans (and_congr_left' (spriteCovers_iff_covers s x y n px py))

/-- What is drawn where depends on the two registers, on `I` and on memory only. -/
theorem covers_congr {t : State} (hx : t.reg x = s.reg x) (hy : t.reg y = s.reg y) (hi : t.i = s.i)
    (hmem : MemKept s t) : Covers t x y n px py ↔ Covers s x y n px py := by
  simp only [Covers, hx, hy, hi, hmem _]

end

/-- Settles O49: pixels and collision are those of the blitter (`State.blit_spec`); `VF` is written last, REDRAW in
every case, and the step then advances. -/
theorem drawInvertsCoveredPixels : Obligations.DrawInvertsCoveredPixels := by
  intro x y n s
  refine ⟨decode_encode (.drw x y n), _, rfl, fun _ _ => blit_pixel_of_covers, fun _ _ => blit_pixel_of_not_covers,
    fun hhit => ?_, fun hmiss => ?_, rfl, completes_advance rfl rfl rfl, regsKept_setReg _ vf _, rfl,
    ⟨rfl, fun _ => rfl⟩, fun _ => rfl, rfl, rfl, rfl⟩
  all_goals rw [State.advance_reg, State.reg_setReg_self]
  · rw [blit_collision_iff.mpr hhit, flagByte, if_pos rfl]
  · have hnone : ¬ (s.blit (s.reg x) (s.reg y) n).collision = true := by
      rw [blit_collision_iff]
      rintro ⟨px, py, hcovers, hon⟩
      rw [hmiss px py hcovers] at hon
      nomatch hon
    rw [flagByte, if_neg hnone]

/-- Settles O50: the sprite covers the same pixels in both draws (`covers_congr`), and each of them is inverted twice; a
pixel that was off before the first draw is on before the second. -/
theorem drawingTwiceErases : Obligations.DrawingTwiceErases := by
  intro x y n s
  obtain ⟨-, t, ht, hflip, hkeep, -, hmiss, -, -, -, hi, -, hmem, -⟩ := drawInvertsCoveredPixels x y n s
  refine ⟨t, ht, fun v pc t' ht' hx hy => ?_⟩
  obtain ⟨-, u, hu, uflip, ukeep, uhit, -⟩ := drawInvertsCoveredPixels x y n t'
  have hpixel : ∀ px py, t'.pixel px py = t.pixel px py := fun px py => by rw [ht']; rfl
  have hcovers : ∀ px py, Covers t' x y n px py ↔ Covers s x y n px py := fun px py =>
    covers_congr hx hy (by rw [ht']; exact hi) (by rw [ht']; exact hmem)
  refine ⟨u, hu, fun px py => ?_, ?_⟩
  · by_cases h : Covers s x y n px py
    · rw [uflip px py ((hcovers px py).mpr h), hpixel, hflip px py h, Bool.not_not]
    · rw [ukeep px py (mt (hcovers px py).mp h), hpixel, hkeep px py h]
  · rintro hoff ⟨px, py, h⟩
    refine ⟨hmiss hoff, uhit ⟨px, py, (hcovers px py).mpr h, ?_⟩⟩
    rw [hpixel, hflip px py h, hoff px py h, Bool.not_false]

end Sys2Proof.Machine
end

section
/-! Proofs about the keypad and the timers (spec/45_keypad_timers.md). -/

namespace Sys2Proof

/-- The word of a row of group E, its fixed digits in one number as the statements write it. -/
theorem decode_Exkk (x : RegIx) (kk : Byte) {i : Instr} (h : encode i = packXKK 0xE#4 x kk) :
    decode (BitVec.ofNat 16 (0xE000 + kk.toNat + x.toNat * 0x100)) = .instr i := by
  rw [Nat.add_right_comm, ← decode_encode i, h]
  rfl

end Sys2Proof

namespace Sys2Proof.Machine

/-- Settles O51: both instructions are skips, by the bit of the keypad that the low four bits of `Vx` name. -/
theorem skipOnKey : Obligations.SkipOnKey :=
  fun x s => ⟨decode_Exkk x 0x9E#8 (i := .skp x) rfl, decode_Exkk x 0xA1#8 (i := .sknp x) rfl,
    ⟨_, rfl, onlyRegs_completes_skipIf s Iff.rfl⟩,
    ⟨_, rfl, onlyRegs_completes_skipIf s (iff_of_eq (Bool.not_eq_true' _))⟩⟩

theorem keySelect_lt {pressed : BitVec 16} (h : pressed ≠ 0) : keySelect pressed < 16 :=
  BitVec.lt_of_getLsbD (keySelect_pressed h)

theorem ofNat_keySelect_toNat {pressed : BitVec 16} (h : pressed ≠ 0) :
    (BitVec.ofNat 8 (keySelect pressed)).toNat = keySelect pressed := by
  have hlt := keySelect_lt h
  rw [BitVec.toNat_ofNat]
  omega

/-- Settles O52: the function is `keySelect`; with a key pressed the instruction writes one register, with none it
waits. -/
theorem keyLoadTakesPressedKey : Obligations.KeyLoadTakesPressedKey := by
  refine ⟨keySelect, fun p hp => ⟨keySelect_lt hp, keySelect_pressed hp⟩,
    fun x s => ⟨decode_Fxkk x 0x0A#8 .ldVxK, fun hkey => ?_, fun hkey => if_pos hkey⟩⟩
  refine ⟨_, if_neg hkey, ?_, completes_onlyRegs_setReg s x _⟩
  rw [State.advance_reg, State.reg_setReg_self, ofNat_keySelect_toNat hkey]

/-- Settles O53: the instruction writes one register, with DT as it stood before the tick at the end of the step. -/
theorem readDelayTimer : Obligations.ReadDelayTimer :=
  fun x s => ⟨decode_Fxkk x 0x07#8 .ldVxDt, _, rfl, s.reg_setReg_self x s.dt, completes_onlyRegs_setReg s x s.dt⟩

/-- Settles O54: the timer is written before the step ends, so the end counts the new value down; nothing else is
written. -/
theorem setTimers : Obligations.SetTimers :=
  fun x s => ⟨decode_Fxkk x 0x15#8 .ldDtVx, decode_Fxkk x 0x18#8 .ldStVx,
    ⟨_, rfl, ends_complete _, onlyRegs_refl s []⟩, ⟨_, rfl, ends_complete _, onlyRegs_refl s []⟩⟩

end Sys2Proof.Machine
end

section
/-! Proofs about reset and the host operations (spec/70_reset_and_hazards.md, spec/40_step_cycle.md R88). -/

namespace Sys2Proof.Machine

/-- Settles O56: `reset()` is written as the state that the statement names, and reads of the old state only the two
fields it keeps. -/
theorem hostResetRestoresResetState : Obligations.HostResetRestoresResetState :=
  fun _ => ⟨rfl, rfl⟩

/-- Settles O57: a ROM that fits is stored from 0x200 on, inside the memory (`State.storeBytes_memRead`); any other is
refused before a byte is stored. -/
theorem loadProgramCopiesOrFails : Obligations.LoadProgramCopiesOrFails := by
  refine fun s rom hwf => ⟨fun hle => ?_, fun hgt => ⟨State.loadProgram_of_gt hgt, ?_⟩⟩
  · obtain ⟨hrom, hother⟩ := State.storeBytes_memRead hwf (a := progBase) (bs := rom) (by rw [progBase]; omega)
    exact ⟨_, State.loadProgram_of_le hle, s.storeBytes_frame _ _, hrom, hother⟩
  · rw [State.hostOp_loadProgram, if_pos hgt]

/-- Settles O58: a launch is a load into the state after reset, whose memory is canonical. -/
theorem launchState : Obligations.LaunchState := by
  refine fun font rom => ⟨fun hle => ?_, fun hgt => ?_⟩
  · obtain ⟨hload, -⟩ := loadProgramCopiesOrFails (State.resetWith font) rom rfl
    obtain ⟨t, ht, hcopied⟩ := hload hle
    exact ⟨t, by rw [launch, ht], hcopied⟩
  · rw [launch, State.loadProgram_of_gt hgt]

/-- The written key is down or up as told, every other key as before. -/
theorem State.keyPressed_keyWrite (s : State) (k : Nib) (down : Bool) {j : Nat} (hj : j < 16) :
    (s.keyWrite k down).keyPressed j = if j = k.toNat then down else s.keyPressed j := by
  have hbit : (BitVec.twoPow 16 k.toNat).getLsbD j = decide (j = k.toNat) := by
    have hk := k.isLt
    simp [BitVec.getLsbD_twoPow, hk, eq_comm]
  cases down
  case false =>
    show (s.key &&& ~~~BitVec.twoPow 16 k.toNat).getLsbD j = _
    rw [BitVec.getLsbD_and, BitVec.getLsbD_not, hbit, decide_eq_true hj, State.keyPressed]
    by_cases h : j = k.toNat <;> simp [h]
  case true =>
    show (s.key ||| BitVec.twoPow 16 k.toNat).getLsbD j = _
    rw [BitVec.getLsbD_or, hbit, State.keyPressed]
    by_cases h : j = k.toNat <;> simp [h]

/-- Settles O59: each operation is an update of the one field; the keypad bit by bit is `State.keyPressed_keyWrite`. -/
theorem keyWriteAndRedrawClear : Obligations.KeyWriteAndRedrawClear :=
  fun s => ⟨fun k down => ⟨rfl, fun _ hj => s.keyPressed_keyWrite k down hj⟩, rfl⟩

end Sys2Proof.Machine
end
